-- ==== Sys2Proof/Word.lean ====
section
/-!
DEFINITION. The word types of the engine (spec/00_scope.md R5, R7; spec/20_memory.md R55).
-/

namespace Sys2Proof

/-- A 32-bit register or command word (R32, R70). -/
abbrev Word := BitVec 32

/-- One addressable unit of pixel memory, one 8-bit channel value (R27, R50). -/
abbrev Byte := BitVec 8

/-- The spec's type `F`: the bit pattern of an IEEE 754 binary64 value (R7). -/
abbrev Binary64 := BitVec 64

/-- The number of a high-precision buffer slot, `HB[0]` to `HB[7]` (R21, `NHB = 8`). -/
abbrev HSlot := Fin 8

/-- The number of a pixel buffer slot, `PB[0]` to `PB[3]` (R25, `NPB = 4`). -/
abbrev PSlot := Fin 4

/-- A channel number: 0 is red, 1 is green, 2 is blue (R18, R52, `NCH = 3`). -/
abbrev Chan := Fin 3

end Sys2Proof
end

