-- ==== Sys2Proof/Syntax.lean ====
section
/-!
DEFINITION. The five commands of the engine (R72) and the names of its registers (R32).
-/

namespace Sys2Proof

/-- A decoded command, one constructor per row of the opcode table (R72, R73). Slot numbers are
numbers of existing slots; a command word whose slot field is out of range decodes to no command
(R76 (c), (d)). -/
inductive Instr where
  /-- `CREATE h<d>` (R91). -/
  | create (d : HSlot)
  /-- `FROMPIX h<d>, p<a>` (R92). -/
  | frompix (d : HSlot) (a : PSlot)
  /-- `TOPIX p<d>, h<a>` (R94). -/
  | topix (d : PSlot) (a : HSlot)
  /-- `BLUR h<d>, h<a>, <r>` (R110); `r` is the unsigned 16-bit radius (R74). -/
  | blur (d a : HSlot) (r : BitVec 16)
  /-- `DIFF p<d>, h<a>, h<b>` (R140); `a` is "small", `b` is "large". -/
  | diff (d : PSlot) (a b : HSlot)
  deriving DecidableEq, Repr

/-- The registers of the register space by name (R32). -/
inductive RegName where
  | cmd
  | status
  | width
  | height
  | faultcmd
  | pbw (s : PSlot)
  | pbh (s : PSlot)
  | hbw (i : HSlot)
  | hbh (i : HSlot)
  deriving DecidableEq, Repr

end Sys2Proof
end

