-- ==== Sys2Proof/WellFormed.lean ====
section
/-!
DEFINITION. Which terms of `Instr` are commands. The slot numbers are in range by their types; the one
condition left is R76 (e), the aliasing rule of BLUR.
-/

namespace Sys2Proof

/-- A command with legal operands: a BLUR never reads and writes one slot (R76 (e), R111). -/
def Instr.wellFormed : Instr → Bool
  | .create _ => true
  | .frompix _ _ => true
  | .topix _ _ => true
  | .blur d a _ => d != a
  | .diff _ _ _ => true

end Sys2Proof
end

