-- ==== Sys2Proof/Decode.lean ====
section
/-!
DEFINITION. The command word (R70, R71): its fields, the decoder (R79), which names the condition of
R76 under which it refuses a word, and the encoder (R81).
-/

namespace Sys2Proof

/-- Field `op`, bits 31:28 (R71). -/
def opField (w : Word) : BitVec 4 := w.extractLsb' 28 4

/-- Field `d`, bits 27:24 (R71). -/
def dField (w : Word) : BitVec 4 := w.extractLsb' 24 4

/-- Field `a`, bits 23:20 (R71). -/
def aField (w : Word) : BitVec 4 := w.extractLsb' 20 4

/-- Field `b`, bits 19:16 (R71). -/
def bField (w : Word) : BitVec 4 := w.extractLsb' 16 4

/-- Field `imm`, bits 15:0 (R71). -/
def immField (w : Word) : BitVec 16 := w.extractLsb' 0 16

/-- The high-precision slot whose number stands in three bits from bit `lo` (R73). -/
def hslotAt (w : Word) (lo : Nat) : HSlot := ⟨(w.extractLsb' lo 3).toNat, (w.extractLsb' lo 3).isLt⟩

/-- The pixel slot whose number stands in two bits from bit `lo` (R73). -/
def pslotAt (w : Word) (lo : Nat) : PSlot := ⟨(w.extractLsb' lo 2).toNat, (w.extractLsb' lo 2).isLt⟩

/-- Why a word is no command: the conditions (a) to (e) of R76. -/
inductive Illegal where
  /-- (a) the opcode is unassigned. -/
  | opcode
  /-- (b) a reserved field is not zero. -/
  | reservedField
  /-- (c) a high-precision slot number is 8 or more. -/
  | hpSlot
  /-- (d) a pixel slot number is 4 or more. -/
  | pixSlot
  /-- (e) a BLUR whose destination is its source. -/
  | sameSlot
  deriving DecidableEq, Repr

/-- The first condition of R76 that a refused word meets, in the order (a), (b), (c), (d), (e). -/
def illegalReason (w : Word) : Illegal :=
  let op := opField w
  let high (x : BitVec 4) : Bool := 8 ≤ x.toNat
  let highPix (x : BitVec 4) : Bool := 4 ≤ x.toNat
  let reserved : Bool :=
    (op == 1 && (aField w != 0 || bField w != 0 || immField w != 0)) ||
    (op == 2 && (bField w != 0 || immField w != 0)) ||
    (op == 3 && (bField w != 0 || immField w != 0)) ||
    (op == 4 && bField w != 0) ||
    (op == 5 && immField w != 0)
  let hp : Bool :=
    (op == 1 && high (dField w)) || (op == 2 && high (dField w)) || (op == 3 && high (aField w)) ||
    (op == 4 && (high (dField w) || high (aField w))) ||
    (op == 5 && (high (aField w) || high (bField w)))
  let pix : Bool :=
    (op == 2 && highPix (aField w)) || (op == 3 && highPix (dField w)) ||
    (op == 5 && highPix (dField w))
  if op == 0 || 6 ≤ op.toNat then .opcode
  else if reserved then .reservedField
  else if hp then .hpSlot
  else if pix then .pixSlot
  else .sameSlot

/-- The decoder of R79, its five mask tests in their order; a word that passes none of them, and a BLUR
with `d = a`, is refused with the condition of R76 it meets. -/
def decode (w : Word) : Except Illegal Instr :=
  if w &&& 0xF8FFFFFF#32 = 0x10000000#32 then .ok (.create (hslotAt w 24))
  else if w &&& 0xF8CFFFFF#32 = 0x20000000#32 then .ok (.frompix (hslotAt w 24) (pslotAt w 20))
  else if w &&& 0xFC8FFFFF#32 = 0x30000000#32 then .ok (.topix (pslotAt w 24) (hslotAt w 20))
  else if w &&& 0xF88F0000#32 = 0x40000000#32 then
    if hslotAt w 24 = hslotAt w 20 then .error .sameSlot
    else .ok (.blur (hslotAt w 24) (hslotAt w 20) (immField w))
  else if w &&& 0xFC88FFFF#32 = 0x50000000#32 then
    .ok (.diff (pslotAt w 24) (hslotAt w 20) (hslotAt w 16))
  else .error (illegalReason w)

/-- The command word with these fields, `op` in the most significant place (R71). -/
def commandWord (op d a b : BitVec 4) (imm : BitVec 16) : Word := op ++ d ++ a ++ b ++ imm

/-- A slot number as a four-bit field. -/
def slotBits (n : Nat) : BitVec 4 := BitVec.ofNat 4 n

/-- The word of a command, `(op << 28) | (d << 24) | (a << 20) | (b << 16) | imm` (R81). -/
def encode : Instr → Word
  | .create d => commandWord 1 (slotBits d) 0 0 0
  | .frompix d a => commandWord 2 (slotBits d) (slotBits a) 0 0
  | .topix d a => commandWord 3 (slotBits d) (slotBits a) 0 0
  | .blur d a r => commandWord 4 (slotBits d) (slotBits a) 0 r
  | .diff d a b => commandWord 5 (slotBits d) (slotBits a) (slotBits b) 0

/-- The decoder asked about an instruction as spec/opcode_table.json numbers its bits: a command is one
32-bit word (R70, R78), bit 0 its least significant bit. -/
def decodeTableWord (nbits w : Nat) : Option Instr :=
  match decode (BitVec.ofNat 32 (w % 2 ^ nbits)) with
  | .ok i => some i
  | .error _ => none

end Sys2Proof
end

