-- ==== Sys2Proof/Config.lean ====
section
/-!
DEFINITION. What an implementation or a platform fixes and the spec leaves open, and the design
constants the spec fixes. An open value is an `opaque` constant without a body: nothing can be proved
about which value it is. The capacity `MAXPIX` (R5, D6) is not here: it is the field `capLess1` of
`State`, so that every statement holds for every capacity (log entry 1).
-/

namespace Sys2Proof.Config

/-- Free value (R38, U2): the byte that offset `offset` of `PBMEM[slot]` holds after the reset numbered
`epoch`, until something writes it. R192 makes the contents arbitrary again at every reset, hence the
first argument. Log entry 2. -/
opaque powerOnByte : (epoch slot offset : Nat) → Byte

/-- The three rounded operations of R8, as a label for `nanChoice`. -/
inductive FloatOp where
  | add
  | sub
  | div
  deriving DecidableEq, Repr

/-- Free value (U10): the sign bit and the 52 fraction bits of the NaN that an operation delivers on
these two operands, where the IEEE 754 result is a NaN. Log entry 3. -/
opaque nanChoice : FloatOp → Binary64 → Binary64 → BitVec 53

/-- `REGBASE` (R5, R51, D19): where the platform maps register 0. Log entry 4. -/
opaque regBase : Nat

/-- The stride between registers on a byte-addressed bus (R56, D19). Log entry 4. -/
opaque regStride : Nat

/-- `PIXBASE[s]` (R5, R51, D19): where the platform maps the pixel region of slot `s`. Log entry 4. -/
opaque pixBase : (slot : Nat) → Nat

/-- A platform's map of the register space and the pixel regions onto its bus (R51, R56). -/
structure BusMap where
  regBase : Nat
  regStride : Nat
  pixBase : (slot : Nat) → Nat

/-- The bus address of register `n` (R51). -/
def BusMap.regAddr (m : BusMap) (n : Nat) : Nat := m.regBase + m.regStride * n

/-- The map of the engine's platform: three open parameters. -/
def busMap : BusMap := ⟨regBase, regStride, pixBase⟩

/-- The upper end of the range of `MAXPIX` (R5). -/
def maxPixLimit : Nat := 2 ^ 30

/-- `RADII`, the radius set of BandPipeline, in its order (R5, R15). -/
def radii : List (BitVec 16) := [2, 3, 5, 8]

/-- `NPASS`, the blur passes of one chain (R5, R15). -/
def nPass : Nat := 5

end Sys2Proof.Config
end

