-- ==== Sys2Proof/Machine/Float.lean ====
section
/-!
DEFINITION. The binary64 arithmetic of the engine (spec/00_scope.md R7 to R12), computed exactly on
integers and rounded once. Every finite binary64 value is a multiple of `2^-1074`, so a finite value is an
integer number of these units, and `fUnit` units make 1.
-/

namespace Sys2Proof.Machine

/-- The number of least subnormals in 1. Irreducible for the elaborator only, which would write the number
out; the kernel computes with it. -/
@[irreducible] def fUnit : Nat := 2 ^ 1074

/-- The sign bit. -/
def fSign (x : Binary64) : Bool := x.getLsbD 63

/-- The 11-bit exponent field. -/
def fExp (x : Binary64) : Nat := (x.extractLsb' 52 11).toNat

/-- The 52-bit fraction field. -/
def fFrac (x : Binary64) : Nat := (x.extractLsb' 0 52).toNat

/-- A NaN: exponent field all ones, fraction not zero. -/
def fIsNaN (x : Binary64) : Bool := fExp x == 2047 && fFrac x != 0

/-- An infinity: exponent field all ones, fraction zero. -/
def fIsInf (x : Binary64) : Bool := fExp x == 2047 && fFrac x == 0

/-- A finite value. -/
def fIsFinite (x : Binary64) : Bool := fExp x != 2047

/-- The magnitude of a finite value in units of `2^-1074`. Of an infinity it is `2^2098`, which exceeds
every finite magnitude, so that it orders infinities too. -/
def fMag (x : Binary64) : Nat :=
  if fExp x = 0 then fFrac x else (2 ^ 52 + fFrac x) * 2 ^ (fExp x - 1)

/-- The value in units of `2^-1074`, signed; both zeros have value 0. -/
def fVal (x : Binary64) : Int := if fSign x then -(fMag x : Int) else (fMag x : Int)

/-- The pattern with this sign bit and these 63 lower bits. -/
def fPack (s : Bool) (m : Nat) : Binary64 := BitVec.ofBool s ++ BitVec.ofNat 63 m

/-- The lower 63 bits of an infinity. -/
def infBits : Nat := 2047 * 2 ^ 52

/-- Round-to-nearest, ties to even (R8), of the magnitude `n / d` units: the lower 63 bits of the result.
`q` is the quotient cut to at most 53 bits, `sh` the bits cut off; a carry out of the fraction steps the
exponent, and what is too large becomes an infinity. -/
def roundMag (n d : Nat) : Nat :=
  let sh := Nat.log2 (n / d) - 52
  let den := d * 2 ^ sh
  let q := n / den
  let r := n % den
  let up := if den < 2 * r ∨ (2 * r = den ∧ q % 2 = 1) then 1 else 0
  min (2 ^ 52 * sh + q + up) infBits

/-- The NaN that operation `op` delivers on operands `a` and `b`: any NaN (U10). -/
def fNaN (op : Config.FloatOp) (a b : Binary64) : Binary64 :=
  let c := Config.nanChoice op a b
  let frac := (c.extractLsb' 0 52).toNat
  fPack (c.getLsbD 52) (infBits + if frac = 0 then 1 else frac)

/-- The value with the other sign. -/
def fNeg (x : Binary64) : Binary64 := x ^^^ 0x8000000000000000#64

/-- The rounded sum of `a` and `b`, with `nan` where IEEE 754 delivers a NaN. A sum that is exactly zero is
`+0.0` unless both operands carry the minus sign. -/
def fSum (nan a b : Binary64) : Binary64 :=
  if fIsNaN a || fIsNaN b then nan
  else if fIsInf a then (if fIsInf b && fSign a != fSign b then nan else a)
  else if fIsInf b then b
  else
    let z := fVal a + fVal b
    if z = 0 then fPack (fSign a && fSign b) 0
    else fPack (decide (z < 0)) (roundMag z.natAbs 1)

/-- `fadd(a, b)` (R8). -/
def fadd (a b : Binary64) : Binary64 := fSum (fNaN .add a b) a b

/-- `fsub(a, b)` (R8). -/
def fsub (a b : Binary64) : Binary64 := fSum (fNaN .sub a b) a (fNeg b)

/-- `fdiv(a, b)` (R8). -/
def fdiv (a b : Binary64) : Binary64 :=
  let s := fSign a != fSign b
  if fIsNaN a || fIsNaN b then fNaN .div a b
  else if fIsInf a then (if fIsInf b then fNaN .div a b else fPack s infBits)
  else if fIsInf b then fPack s 0
  else if fMag b = 0 then (if fMag a = 0 then fNaN .div a b else fPack s infBits)
  else fPack s (roundMag (fUnit * fMag a) (fMag b))

/-- The ordered comparison `a >= b` (R9): false on a NaN, the zeros equal. -/
def fge (a b : Binary64) : Bool := !fIsNaN a && !fIsNaN b && decide (fVal b ≤ fVal a)

/-- The ordered comparison `a < b` (R9): false on a NaN, the zeros equal. -/
def flt (a b : Binary64) : Bool := !fIsNaN a && !fIsNaN b && decide (fVal a < fVal b)

/-- The value of `F` nearest to the integer `n`; `+0.0` for 0. -/
def fOfInt (n : Int) : Binary64 := fPack (decide (n < 0)) (roundMag (fUnit * n.natAbs) 1)

/-- `ffloor(a)` (R10): a zero, an infinity and a NaN are returned as they are. -/
def ffloor (a : Binary64) : Binary64 :=
  if fIsFinite a && fMag a != 0 then fOfInt (fVal a / (fUnit : Int)) else a

/-- `f_of_u8(b)` (R11). -/
def fOfU8 (b : Byte) : Binary64 := fOfInt b.toNat

/-- `f_of_count(n)` (R11). -/
def fOfCount (n : Nat) : Binary64 := fOfInt n

/-- `u8_of_f(a)` (R11), applied only to an integer value from 0 to 255. -/
def u8OfF (a : Binary64) : Byte := BitVec.ofNat 8 (fMag a / fUnit)

/-- `+0.0` (R12). -/
def fZero : Binary64 := 0#64

/-- `-1.0` (R12). -/
def fMinusOne : Binary64 := 0xBFF0000000000000#64

/-- `255.0` (R12). -/
def f255 : Binary64 := 0x406FE00000000000#64

/-- `257.0` (R12). -/
def f257 : Binary64 := 0x4070100000000000#64

end Sys2Proof.Machine
end

