-- ==== Sys2Proof/Machine/State.lean ====
section
/-!
DEFINITION. The state of the machine as plain data, the reasons it can stop, and the state after reset.

The architectural state is that of R20: eight high-precision slots, four pixel slots, `WIDTH`, `HEIGHT`,
`STATUS`, `FAULTCMD`. Four more fields are the MODEL's own, not the spec's: the capacity parameter, the
number of the reset that filled pixel memory with its unspecified bytes, the host's accesses still to be
performed, and the answer the host got to its last one.
-/

namespace Sys2Proof.Machine

/-- Pixel memory of one slot (R25): the bytes written since reset, as (offset, byte) pairs with strictly
rising offsets. An offset not listed has not been written since reset and holds the free value
`Config.powerOnByte` (R38, U2; `State.pixByte` reads it). Log entry 2. -/
abbrev Memory := List Host.Cell

/-- One high-precision slot (R21): its width, its height, and its channel values as a flat row-major
sequence, three a pixel, so that channel `c` of the pixel with flat index `k` is `px[3*k + c]` (R23).
An empty slot has `w = h = 0` and no value (R22). -/
structure HBuf where
  w : Nat
  h : Nat
  px : List Binary64
  deriving DecidableEq, Repr

/-- One pixel slot (R25): `PBW`, `PBH` and `PBMEM`. -/
structure PixSlot where
  w : Word
  h : Word
  mem : Memory
  deriving DecidableEq, Repr

/-- What the outside does to the engine, one at a time (R51): the host's four primitives, the platform's
reset input (R190), and an access on a byte-addressed platform bus (R51, R54, R56). -/
inductive Access where
  /-- `RegRead(n)`. -/
  | regRead (n : Nat)
  /-- `RegWrite(n, v)`; with `n = 0` it issues the command `v` (R31). -/
  | regWrite (n : Nat) (v : Word)
  /-- `PixRead(s, o)`. -/
  | pixRead (s o : Nat)
  /-- `PixWrite(s, o, b)`. -/
  | pixWrite (s o : Nat) (b : Byte)
  /-- The platform asserts reset (R190). -/
  | reset
  /-- `MemRead(addr, len)` on the platform's bus, `len` bytes (R51). -/
  | busRead (addr len : Nat)
  /-- `MemWrite(addr, len, v)` on the platform's bus (R51); one byte is the low byte of `v`. -/
  | busWrite (addr len : Nat) (v : Word)
  deriving DecidableEq, Repr

/-- What an access returns to the host (R51, R55). -/
inductive Reply where
  | word (v : Word)
  | byte (b : Byte)
  deriving DecidableEq, Repr

/-- The whole state. -/
structure State where
  /-- `HB[0]` to `HB[7]` (R20 (a), R21). -/
  hb : Vector HBuf 8
  /-- `PB[0]` to `PB[3]` (R20 (b), R25). -/
  pb : Vector PixSlot 4
  /-- Register `WIDTH` (R28). -/
  width : Word
  /-- Register `HEIGHT` (R28). -/
  height : Word
  /-- Register `STATUS`: `FAULT` in bit 0, `ERR` in bits 6:4 (R29). -/
  status : Word
  /-- Register `FAULTCMD` (R30). -/
  faultcmd : Word
  /-- MODEL's own: the parameter `MAXPIX` less one (R5, D6); no step changes it. Log entry 1. -/
  capLess1 : BitVec 30
  /-- MODEL's own: how many resets came before, the argument of the free bytes (R192). Log entry 2. -/
  epoch : Nat
  /-- MODEL's own: the host's accesses not yet performed, the next one first (R33, R199). Log entry 5. -/
  todo : List Access
  /-- MODEL's own: what the last access returned, if it returned anything. Log entry 5. -/
  reply : Option Reply
  deriving DecidableEq, Repr

/-- Why the machine stops. The engine's five errors are no faults in this sense: they are states
(`raise` in Machine/Ops.lean). -/
inductive Fault where
  /-- Raised by TOPIX, BLUR and DIFF where a source slot breaks the invariant of R22, so that a pixel access
  would fail the bounds check of R23. R181: the case cannot arise and a model may assert it. Safe: the
  model stops where no machine of the spec can be. -/
  | boundsCheck
  deriving DecidableEq, Repr

/-- Why an instruction or an access has no meaning. -/
inductive Refusal where
  /-- Raised by an arm of `exec` that has no meaning yet; no arm is left. Safe. -/
  | notModelled (mnemonic : String)
  /-- Raised by a platform bus access that is no register access of 4 bytes and no pixel access of 1 byte
  at an address the platform maps to exactly one place: R54 and U6 give it no meaning and ask for a
  refusal. Safe. -/
  | busAccess
  deriving DecidableEq, Repr

/-- An empty high-precision slot (R22). -/
def HBuf.empty : HBuf := ⟨0, 0, []⟩

/-- A pixel slot after reset: `PBW = PBH = 0`, no byte written (R38). -/
def PixSlot.fresh : PixSlot := ⟨0, 0, []⟩

/-- The state right after a reset (R38, R191) of an engine of capacity `capLess1 + 1`, for any such
capacity; `epoch` numbers the reset, `todo` is what the host goes on to do. -/
def State.powerOn (capLess1 : BitVec 30) (epoch : Nat) (todo : List Access) : State where
  hb := Vector.replicate 8 HBuf.empty
  pb := Vector.replicate 4 PixSlot.fresh
  width := 0
  height := 0
  status := 0
  faultcmd := 0
  capLess1 := capLess1
  epoch := epoch
  todo := todo
  reply := none

/-- The machine right after its first reset. The capacity 4096 is the one the spec's own vectors assume
(spec/95_test_vectors.md, Conventions); it is a DESIGN CHOICE of log entry 1 and no statement rests on it. -/
def State.reset : State := State.powerOn 4095 0 []

end Sys2Proof.Machine
end

