-- ==== Sys2Proof/Machine/Flags.lean ====
section
/-!
DEFINITION. The engine's errors and its only flags, `STATUS.FAULT` and `STATUS.ERR` (R29, R160).
-/

namespace Sys2Proof.Machine

/-- The five errors (R160). -/
inductive CmdError where
  | invalidDimension
  | allocationFailure
  | dimensionMismatch
  | illegalCommand
  | emptyBuffer
  deriving DecidableEq, Repr

/-- The code of an error, recorded in `STATUS.ERR` (R160). -/
def errorCode : CmdError → BitVec 3
  | .invalidDimension => 1
  | .allocationFailure => 2
  | .dimensionMismatch => 3
  | .illegalCommand => 4
  | .emptyBuffer => 5

/-- `STATUS.FAULT`, bit 0 (R29). -/
def faultFlag (status : Word) : Bool := status.getLsbD 0

/-- `STATUS.ERR`, bits 6:4 (R29). -/
def errField (status : Word) : BitVec 3 := status.extractLsb' 4 3

/-- The `STATUS` word with `FAULT = 1`, `ERR = code`, and every other bit 0 (R29, R168). -/
def faultStatus (code : BitVec 3) : Word := 0#25 ++ code ++ 0#3 ++ 1#1

/-- What a read of `STATUS` returns: bits 3:1 and 31:7 read as 0 (R29). -/
def statusRead (status : Word) : Word := status &&& 0x00000071#32

end Sys2Proof.Machine
end

