-- ==== Sys2Proof/Machine/Ops.lean ====
section
/-!
DEFINITION. The named operations over pixel memory, slots and registers; taking an error (R168) as one
operation; and the reset, which is the only way back from it (R169).
-/

namespace Sys2Proof.Machine

/-! ### Slots by number -/

/-- `HB[i]` (R21). -/
def State.buf (s : State) (i : HSlot) : HBuf := s.hb[i]

/-- `PB[p]` (R25). -/
def State.slot (s : State) (p : PSlot) : PixSlot := s.pb[p]

/-! ### Pixel memory -/

/-- The byte written last at offset `o`, if one has been written since reset. -/
def memByte : Memory → Nat → Option Byte
  | [], _ => none
  | (a, b) :: m, o => if a = o then some b else memByte m o

/-- Store byte `b` at offset `o`. -/
def memWrite : Memory → Nat → Byte → Memory
  | [], o, b => [(o, b)]
  | (a, c) :: m, o, b =>
    if o < a then (o, b) :: (a, c) :: m
    else if o = a then (o, b) :: m
    else (a, c) :: memWrite m o b

/-- The cells of a run of bytes from offset `o` up. -/
def cellsFrom : Nat → List Byte → Memory
  | _, [] => []
  | o, b :: bs => (o, b) :: cellsFrom (o + 1) bs

/-- Store a run of bytes at offsets `0` to its length less one; later bytes keep their values (R97). -/
def memWriteImage (m : Memory) (bytes : List Byte) : Memory :=
  cellsFrom 0 bytes ++ m.filter (fun c => decide (bytes.length ≤ c.1))

/-- The canonical form: offsets strictly rising. An unlisted offset reads as no written byte, so no entry
can equal what an unlisted offset reads as. -/
abbrev Memory.wf (m : Memory) : Prop := m.Pairwise (fun x y => x.1 < y.1)

/-- The parameter `MAXPIX`, from 1 to `2^30` (R5). -/
def State.maxPix (s : State) : Nat := s.capLess1.toNat + 1

/-- The byte at offset `o` of `PBMEM[p]`: the byte written last, or the unspecified byte it has held since
reset (R38). -/
def State.pixByte (s : State) (p : PSlot) (o : Nat) : Byte :=
  match memByte (s.slot p).mem o with
  | some b => b
  | none => Config.powerOnByte s.epoch p o

/-! ### Writing a slot -/

/-- Make `HB[d]` this buffer; its previous contents are discarded as a whole (R97). -/
def State.setHB (s : State) (d : HSlot) (b : HBuf) : State := { s with hb := s.hb.set d b }

/-- Replace pixel slot `p`. -/
def State.setPB (s : State) (p : PSlot) (x : PixSlot) : State := { s with pb := s.pb.set p x }

/-- Write an image of width `w` and height `h` to `PB[d]`: `PBW[d]`, `PBH[d]` and the bytes from offset 0
(R94, R145); later bytes keep their values (R97). -/
def State.setImage (s : State) (d : PSlot) (w h : Nat) (bytes : List Byte) : State :=
  s.setPB d ⟨BitVec.ofNat 32 w, BitVec.ofNat 32 h, memWriteImage (s.slot d).mem bytes⟩

/-! ### Errors and reset -/

/-- Fault entry, `raise E` while executing the word `w` (R168): `STATUS.FAULT`, `STATUS.ERR` and `FAULTCMD`
are written and nothing else is. -/
def raise (e : CmdError) (w : Word) (s : State) : State :=
  { s with status := faultStatus (errorCode e), faultcmd := w }

/-- The platform's reset input (R190, R191, R192): the state of R38, pixel memory unspecified anew. What
the host goes on to do is the host's, and the capacity is the engine's. -/
def platformReset (s : State) : State := State.powerOn s.capLess1 (s.epoch + 1) s.todo

/-! ### The register space -/

/-- The register with this number; none for the reserved numbers 5, 6, 7 and for numbers above 31 (R32,
R37). -/
def regOfNumber (n : Nat) : Option RegName :=
  if n = 0 then some .cmd
  else if n = 1 then some .status
  else if n = 2 then some .width
  else if n = 3 then some .height
  else if n = 4 then some .faultcmd
  else if n < 8 then none
  else if n < 16 then
    let s : PSlot := Fin.ofNat 4 ((n - 8) / 2)
    if n % 2 = 0 then some (.pbw s) else some (.pbh s)
  else if n < 32 then
    let i : HSlot := Fin.ofNat 8 ((n - 16) / 2)
    if n % 2 = 0 then some (.hbw i) else some (.hbh i)
  else none

/-- The number of a register (R32). -/
def regNumber : RegName → Nat
  | .cmd => 0
  | .status => 1
  | .width => 2
  | .height => 3
  | .faultcmd => 4
  | .pbw s => 8 + 2 * s.val
  | .pbh s => 9 + 2 * s.val
  | .hbw i => 16 + 2 * i.val
  | .hbh i => 17 + 2 * i.val

/-- The value a register reads as (R29 to R32, R36). -/
def State.readReg (s : State) : RegName → Word
  | .cmd => 0
  | .status => statusRead s.status
  | .width => s.width
  | .height => s.height
  | .faultcmd => s.faultcmd
  | .pbw p => (s.slot p).w
  | .pbh p => (s.slot p).h
  | .hbw i => BitVec.ofNat 32 (s.buf i).w
  | .hbh i => BitVec.ofNat 32 (s.buf i).h

/-- A host write to a register other than `CMD`: a write to a read-only register is ignored (R32). A write
to `CMD` stores nothing (R31); what it does is `issue` in Machine/HostAccess.lean. -/
def State.writeReg (s : State) (r : RegName) (v : Word) : State :=
  match r with
  | .cmd => s
  | .status => s
  | .width => { s with width := v }
  | .height => { s with height := v }
  | .faultcmd => s
  | .pbw p => s.setPB p { s.slot p with w := v }
  | .pbh p => s.setPB p { s.slot p with h := v }
  | .hbw _ => s
  | .hbh _ => s

/-- `RegRead(n)`: a number that names no register reads as 0 (R63). -/
def State.regRead (s : State) (n : Nat) : Word :=
  match regOfNumber n with
  | some r => s.readReg r
  | none => 0

/-- `RegWrite(n, v)` for `n` other than 0: a write to a number that names no register is ignored (R63). -/
def State.regWrite (s : State) (n : Nat) (v : Word) : State :=
  match regOfNumber n with
  | some r => s.writeReg r v
  | none => s

/-! ### The pixel memory space -/

/-- The pixel slot with this number, if there is one. -/
def pslotOf (n : Nat) : Option PSlot := if h : n < 4 then some ⟨n, h⟩ else none

/-- `PixRead(s, o)`: a place that does not exist reads as 0 (R63). -/
def State.pixRead (s : State) (slot o : Nat) : Byte :=
  match pslotOf slot with
  | some p => if o < 3 * s.maxPix then s.pixByte p o else 0
  | none => 0

/-- `PixWrite(s, o, b)`: a write to a place that does not exist is ignored (R63). -/
def State.pixWrite (s : State) (slot o : Nat) (b : Byte) : State :=
  match pslotOf slot with
  | some p =>
    if o < 3 * s.maxPix then s.setPB p { s.slot p with mem := memWrite (s.slot p).mem o b } else s
  | none => s

end Sys2Proof.Machine
end

