-- ==== Sys2Proof/Machine/Operands.lean ====
section
/-!
DEFINITION. The operand forms of the commands: dimensions taken from a pair of signed registers (R28, R91,
R92), one source slot (R94, R110), two source slots of one shape (R140), and the access to a pixel of a
slot (R23).
-/

namespace Sys2Proof.Machine

/-- The dimensions a CREATE or FROMPIX reads from two signed 32-bit registers, or the error it raises:
`InvalidDimension` before `AllocationFailure` (R161, R162, R167). The product is one of integers (R6). -/
def imageDims (maxPix : Nat) (w h : Word) : Except CmdError (Nat × Nat) :=
  if w.toInt ≤ 0 ∨ h.toInt ≤ 0 then .error .invalidDimension
  else if (maxPix : Int) < w.toInt * h.toInt then .error .allocationFailure
  else .ok (w.toInt.toNat, h.toInt.toNat)

/-- The buffer in a source slot, or `EmptyBuffer` (R165). -/
def sourceBuffer (s : State) (a : HSlot) : Except CmdError HBuf :=
  if (s.buf a).w = 0 then .error .emptyBuffer else .ok (s.buf a)

/-- The buffers "small" and "large" of a DIFF, or its error: `EmptyBuffer` before `DimensionMismatch`
(R140, R167). -/
def sourcePair (s : State) (a b : HSlot) : Except CmdError (HBuf × HBuf) :=
  if (s.buf a).w = 0 ∨ (s.buf b).w = 0 then .error .emptyBuffer
  else if (s.buf a).w ≠ (s.buf b).w ∨ (s.buf a).h ≠ (s.buf b).h then .error .dimensionMismatch
  else .ok (s.buf a, s.buf b)

/-- The bounds check of R23 over a whole buffer: every one of its `3*W*H` values is there, and its image
has room in a slot (R22). -/
def HBuf.inBounds (maxPix : Nat) (b : HBuf) : Bool :=
  b.px.length == 3 * (b.w * b.h) && decide (b.w * b.h ≤ maxPix)

/-- Channel `c` of the pixel at column `x`, row `y` (R23). -/
def HBuf.at (b : HBuf) (x y : Nat) (c : Chan) : Binary64 :=
  (b.px[3 * (y * b.w + x) + c.val]?).getD fZero

/-- The bytes of an image of `n` bytes in `PBMEM[p]`, from offset 0 (R52, R58). -/
def imageBytes (s : State) (p : PSlot) (n : Nat) : List Byte := (List.range n).map (s.pixByte p)

end Sys2Proof.Machine
end

