-- ==== Sys2Proof/Machine/Blur.lean ====
section
/-!
DEFINITION. BLUR (spec/41_blur.md): the summed-area table, the clipped window, the window sum and the
mean, for each of three independent channels (R119).
-/

namespace Sys2Proof.Machine

/-- The values of channel `c` of a buffer in flat pixel order (R23, R119). -/
def channelPlane (b : HBuf) (c : Chan) : Array Binary64 :=
  ((List.range (b.w * b.h)).map (fun k => (b.px[3 * k + c.val]?).getD fZero)).toArray

/-- The entry of the table at flat index `k` of an image of width `w`, from the input and the entries
before it (R114): `((input + left) + up) - diagonal`, a term out of range being `+0.0`. -/
def satEntry (input : Array Binary64) (w : Nat) (table : Array Binary64) (k : Nat) : Binary64 :=
  let x := k % w
  let y := k / w
  let term (present : Bool) (j : Nat) : Binary64 := if present then (table[j]?).getD fZero else fZero
  let left := term (decide (1 ≤ x)) (k - 1)
  let up := term (decide (1 ≤ y)) (k - w)
  let diagonal := term (decide (1 ≤ x) && decide (1 ≤ y)) (k - w - 1)
  fsub (fadd (fadd ((input[k]?).getD fZero) left) up) diagonal

/-- The first `n` entries of the summed-area table of one channel, built in row-major order (R114). -/
def buildSat (input : Array Binary64) (w : Nat) : Nat → Array Binary64
  | 0 => #[]
  | k + 1 => let table := buildSat input w k; table.push (satEntry input w table k)

/-- A window: columns `x0` to `x1`, rows `y0` to `y1`. -/
structure Window where
  x0 : Nat
  x1 : Nat
  y0 : Nat
  y1 : Nat
  deriving DecidableEq, Repr

/-- The window of radius `r` about `(x, y)`, clipped at the borders (R115). Natural subtraction stops at 0,
which is the `max(0, ·)` of the rule. -/
def windowAt (x y r w h : Nat) : Window :=
  { x0 := x - r, x1 := min (w - 1) (x + r), y0 := y - r, y1 := min (h - 1) (y + r) }

/-- The window count (R116). -/
def Window.count (v : Window) : Nat := (v.x1 - v.x0 + 1) * (v.y1 - v.y0 + 1)

/-- The window sum from the table of an image of width `w` (R117): bottom-right corner, less the left strip,
less the top strip, plus the corner counted twice; a term out of range is skipped. -/
def windowSum (table : Array Binary64) (w : Nat) (v : Window) : Binary64 :=
  let entry (x y : Nat) : Binary64 := (table[y * w + x]?).getD fZero
  let s0 := entry v.x1 v.y1
  let s1 := if 1 ≤ v.x0 then fsub s0 (entry (v.x0 - 1) v.y1) else s0
  let s2 := if 1 ≤ v.y0 then fsub s1 (entry v.x1 (v.y0 - 1)) else s1
  if 1 ≤ v.x0 ∧ 1 ≤ v.y0 then fadd s2 (entry (v.x0 - 1) (v.y0 - 1)) else s2

/-- The mean over the window of the pixel with flat index `k` (R118). -/
def meanAt (table : Array Binary64) (w h r k : Nat) : Binary64 :=
  let v := windowAt (k % w) (k / w) r w h
  fdiv (windowSum table w v) (fOfCount v.count)

/-- One channel of the blur for a radius of 1 or more (R119). -/
def blurPlane (b : HBuf) (r : Nat) (c : Chan) : Array Binary64 :=
  let table := buildSat (channelPlane b c) b.w (b.w * b.h)
  ((List.range (b.w * b.h)).map (meanAt table b.w b.h r)).toArray

/-- The box blur of a buffer (R110): radius 0 is an exact copy (R112); otherwise the three channel planes are
blurred apart and put back in pixel order. -/
def boxBlur (b : HBuf) (r : Nat) : HBuf :=
  if r = 0 then b
  else
    let red := blurPlane b r 0
    let green := blurPlane b r 1
    let blue := blurPlane b r 2
    let value (p : Array Binary64) (k : Nat) : Binary64 := (p[k]?).getD fZero
    { b with px := (List.range (b.w * b.h)).flatMap (fun k => [value red k, value green k, value blue k]) }

/-- BLUR (R110): `HB[d]` becomes the box blur of `HB[a]`. A term with `d = a` is the illegal command of R76
(e) and raises that error. -/
def execBlur (d a : HSlot) (r : BitVec 16) (s : State) : Host.Outcome State Fault Refusal :=
  if d = a then .next (raise .illegalCommand (encode (.blur d a r)) s)
  else
    match sourceBuffer s a with
    | .error e => .next (raise e (encode (.blur d a r)) s)
    | .ok b =>
      if b.inBounds s.maxPix then .next (s.setHB d (boxBlur b r.toNat)) else .fault .boundsCheck

end Sys2Proof.Machine
end

