-- ==== Sys2Proof/Machine/Buffer.lean ====
section
/-!
DEFINITION. The buffer commands CREATE, FROMPIX and TOPIX (spec/40_buffer_commands.md). Every command
checks first and writes its whole destination after (R90); the word an error records is the command's own,
which `encode` gives because no bit of a command word is ignored (R75).
-/

namespace Sys2Proof.Machine

/-- `narrow8` (R96): floor first, clamp second; a NaN gives 0. -/
def narrow8 (v : Binary64) : Byte :=
  let t := ffloor v
  if fIsNaN v then 0
  else if flt t fZero then 0
  else if fge t f255 then 255
  else u8OfF t

/-- CREATE (R91): `HB[d]` becomes a buffer of `WIDTH` by `HEIGHT` pixels, every value `+0.0` (R93). -/
def execCreate (d : HSlot) (s : State) : Host.Outcome State Fault Refusal :=
  match imageDims s.maxPix s.width s.height with
  | .error e => .next (raise e (encode (.create d)) s)
  | .ok (w, h) => .next (s.setHB d ⟨w, h, List.replicate (3 * (w * h)) fZero⟩)

/-- FROMPIX (R92): `HB[d]` becomes the widened copy of the image in `PB[a]` (R95). -/
def execFrompix (d : HSlot) (a : PSlot) (s : State) : Host.Outcome State Fault Refusal :=
  match imageDims s.maxPix (s.slot a).w (s.slot a).h with
  | .error e => .next (raise e (encode (.frompix d a)) s)
  | .ok (w, h) => .next (s.setHB d ⟨w, h, (imageBytes s a (3 * (w * h))).map fOfU8⟩)

/-- TOPIX (R94): the image in `PB[d]` becomes the narrowed copy of `HB[a]`. -/
def execTopix (d : PSlot) (a : HSlot) (s : State) : Host.Outcome State Fault Refusal :=
  match sourceBuffer s a with
  | .error e => .next (raise e (encode (.topix d a)) s)
  | .ok b =>
    if b.inBounds s.maxPix then .next (s.setImage d b.w b.h (b.px.map narrow8))
    else .fault .boundsCheck

end Sys2Proof.Machine
end

