-- ==== Sys2Proof/Machine/Diff.lean ====
section
/-!
DEFINITION. DIFF, the difference compositor (spec/43_diff.md).
-/

namespace Sys2Proof.Machine

/-- The quantization function `Q` (R142, R143), branch by branch in the rule's order. -/
def quantize (v : Binary64) : Byte :=
  if fge v f255 then 255
  else if flt v fMinusOne then
    let v2 := fadd v f257
    if fge v2 f255 then 255
    else
      let t := ffloor v2
      if flt t fZero then 0 else u8OfF t
  else if flt v fZero then 0
  else if fge v fZero then u8OfF (ffloor v)
  else 0

/-- The byte of one channel value: `Q(large - small)` (R141). -/
def diffByte (small large : Binary64) : Byte := quantize (fsub large small)

/-- DIFF (R140): the image in `PB[d]` becomes the quantized difference `HB[b] - HB[a]`. -/
def execDiff (d : PSlot) (a b : HSlot) (s : State) : Host.Outcome State Fault Refusal :=
  match sourcePair s a b with
  | .error e => .next (raise e (encode (.diff d a b)) s)
  | .ok (small, large) =>
    if small.inBounds s.maxPix && large.inBounds s.maxPix then
      .next (s.setImage d small.w small.h (List.zipWith diffByte small.px large.px))
    else .fault .boundsCheck

end Sys2Proof.Machine
end

