-- ==== Sys2Proof/Machine/Dispatch.lean ====
section
/-!
DEFINITION. The meaning of each command, one arm per constructor.
-/

namespace Sys2Proof.Machine

def exec (i : Instr) (s : State) : Host.Outcome State Fault Refusal :=
  match i with
  | .create d => Sys2Proof.Machine.execCreate d s
  | .frompix d a => Sys2Proof.Machine.execFrompix d a s
  | .topix d a => Sys2Proof.Machine.execTopix d a s
  | .blur d a r => Sys2Proof.Machine.execBlur d a r s
  | .diff d a b => Sys2Proof.Machine.execDiff d a b s

end Sys2Proof.Machine
end

