-- ==== Sys2Proof/Machine/HostAccess.lean ====
section
/-!
DEFINITION. What one access of the host does (R51, R55, R63), the issue of a command (R80), and the
platform's bus (R51, R54, R56).
-/

namespace Sys2Proof.Machine

/-- Command issue (R80): with `FAULT = 1` the write is ignored (R169); an illegal word raises
`IllegalCommand` (R164); any other word is executed. -/
def issue (w : Word) (s : State) : Host.Outcome State Fault Refusal :=
  if faultFlag s.status then .next s
  else
    match decode w with
    | .error _ => .next (raise .illegalCommand w s)
    | .ok i => exec i s

/-- `RegWrite(n, v)`: register 0 issues a command (R31), any other stores or ignores (R55). -/
def performRegWrite (n : Nat) (v : Word) (s : State) : Host.Outcome State Fault Refusal :=
  if n = 0 then issue v s else .next (s.regWrite n v)

/-- What a bus access of an engine can stand for. -/
inductive BusTarget where
  | reg (n : Nat)
  | pix (slot o : Nat)
  deriving DecidableEq, Repr

/-- The places that `len` bytes at bus address `addr` stand for on a platform with map `m` (R51): 4 bytes at the
address of a register, 1 byte inside a pixel region. -/
def busTargets (m : Config.BusMap) (maxPix addr len : Nat) : List BusTarget :=
  if len = 4 then
    ((List.range 32).filter (fun n => decide (addr = m.regAddr n))).map BusTarget.reg
  else if len = 1 then
    ((List.range 4).filter (fun p => decide (m.pixBase p ≤ addr ∧ addr < m.pixBase p + 3 * maxPix))).map
      (fun p => .pix p (addr - m.pixBase p))
  else []

/-- `MemRead(addr, len)`: the register or pixel read it stands for; any other is refused (R54, U6). -/
def performBusRead (m : Config.BusMap) (addr len : Nat) (s : State) : Host.Outcome State Fault Refusal :=
  match busTargets m s.maxPix addr len with
  | [.reg n] => .next { s with reply := some (.word (s.regRead n)) }
  | [.pix p o] => .next { s with reply := some (.byte (s.pixRead p o)) }
  | _ => .refused .busAccess

/-- `MemWrite(addr, len, v)`: the register or pixel write it stands for; any other is refused (R54, U6). -/
def performBusWrite (m : Config.BusMap) (addr len : Nat) (v : Word) (s : State) : Host.Outcome State Fault Refusal :=
  match busTargets m s.maxPix addr len with
  | [.reg n] => performRegWrite n v s
  | [.pix p o] => .next (s.pixWrite p o (v.setWidth 8))
  | _ => .refused .busAccess

/-- One access, performed at its point of the host's order (R57). -/
def perform (a : Access) (s : State) : Host.Outcome State Fault Refusal :=
  match a with
  | .regRead n => .next { s with reply := some (.word (s.regRead n)) }
  | .regWrite n v => performRegWrite n v s
  | .pixRead p o => .next { s with reply := some (.byte (s.pixRead p o)) }
  | .pixWrite p o b => .next (s.pixWrite p o b)
  | .reset => .next (platformReset s)
  | .busRead addr len => performBusRead Config.busMap addr len s
  | .busWrite addr len v => performBusWrite Config.busMap addr len v s

/-- The state in which the next access is performed: it is taken from the host's list, and the answer to
the one before is gone. -/
def State.takeAccess (s : State) (rest : List Access) : State := { s with todo := rest, reply := none }

/-- One step (R4): the host performs its next access; with none left the engine is idle and keeps all its
state (R180, R199). -/
def nextAccess (s : State) : Host.Outcome State Fault Refusal :=
  match s.todo with
  | [] => .next s
  | a :: rest => perform a (s.takeAccess rest)

/-- The state whose next access is the issue of the command word `w`. -/
def State.withCommand (s : State) (w : Word) : State := { s with todo := .regWrite 0 w :: s.todo }

end Sys2Proof.Machine
end

