-- ==== Sys2Proof/Machine/Step.lean ====
section
/-!
DEFINITION. The step of the machine (R4, R57) and the place its next command is put.
-/

namespace Sys2Proof.Machine

/-- One step: the host's next access. -/
def step (s : State) : Host.Outcome State Fault Refusal := nextAccess s

/-- The state whose next step issues the command whose bits are `w`. The engine fetches nothing (R33, R60):
a command arrives as the data of a host write to `CMD`, so it is put before the host's other accesses. -/
def State.withFetchWord (s : State) (nbits w : Nat) : State :=
  s.withCommand (BitVec.ofNat 32 (w % 2 ^ nbits))

end Sys2Proof.Machine
end

