-- ==== Sys2Proof/Machine/BandPipeline.lean ====
section
/-!
DEFINITION. The pseudo-instructions CHAIN and BANDS (R82, R130, R131), which the host expands to commands,
and a host's program text in the spec's notation (R81).
-/

namespace Sys2Proof.Machine

/-- `n` passes of radius `r`, the first reading `src` and writing `dst`, the two slots changing roles from
pass to pass (R130). -/
def blurPasses (r : BitVec 16) : Nat → HSlot → HSlot → List Instr
  | 0, _, _ => []
  | n + 1, src, dst => .blur dst src r :: blurPasses r n dst src

/-- `CHAIN h<e>, h<o>, p<s>, <r>` (R130): the copy and `NPASS` passes; with `NPASS = 5` the result is in
`HB[o]`. R130 gives CHAIN for `e != o` only. DESIGN CHOICE (log entry 15): with `e = o` it expands all the same, to
the copy and five words of a BLUR onto its own source, the first of which raises `IllegalCommand` (R76 (e)). -/
def chain (e o : HSlot) (p : PSlot) (r : BitVec 16) : List Instr :=
  .frompix e p :: blurPasses r Config.nPass e o

/-- The chains of BANDS (R131, R133): chain `j`, of the radius number `j` of `RADII`, uses `HB[2j]` and
`HB[2j+1]` and reads `PB[0]`. -/
def bandChains : List Instr :=
  (Config.radii.zipIdx.map (fun (r, j) => chain (Fin.ofNat 8 (2 * j)) (Fin.ofNat 8 (2 * j + 1)) 0 r)).flatten

/-- `BANDS` (R131, R134): four chains, then the tiny, small and medium bands into `PB[1]`, `PB[2]`, `PB[3]`. -/
def bands : List Instr := bandChains ++ [.diff 1 1 3, .diff 2 3 5, .diff 3 5 7]

/-- The host's writes to `CMD` that issue these commands one after another (R33). -/
def issueAll (l : List Instr) : List Access := l.map (fun i => .regWrite 0 (encode i))

/-- One line of a program: a host action or a command (R81), or a pseudo-instruction (R82). -/
inductive Line where
  | wr (r : RegName) (v : Word)
  | rd (r : RegName)
  | pixwr (p : PSlot) (o : Nat) (b : Byte)
  | pixrd (p : PSlot) (o : Nat)
  | command (i : Instr)
  /-- A raw command word, `.word` in spec/95_test_vectors.md. -/
  | word (w : Word)
  | chain (e o : HSlot) (p : PSlot) (r : BitVec 16)
  | bands
  deriving DecidableEq, Repr

/-- What a line makes the host do. -/
def lineAccesses : Line → List Access
  | .wr r v => [.regWrite (regNumber r) v]
  | .rd r => [.regRead (regNumber r)]
  | .pixwr p o b => [.pixWrite p o b]
  | .pixrd p o => [.pixRead p o]
  | .command i => issueAll [i]
  | .word w => [.regWrite 0 w]
  | .chain e o p r => issueAll (chain e o p r)
  | .bands => issueAll bands

/-- What a program makes the host do (R199). -/
def programAccesses (l : List Line) : List Access := l.flatMap lineAccesses

/-- The name of a high-precision slot in program text (R81). -/
def hslotText (i : HSlot) : String := "h" ++ toString i.val

/-- The name of a pixel slot in program text (R81). -/
def pslotText (p : PSlot) : String := "p" ++ toString p.val

/-- A command in program text: the mnemonic, then the operands, destination first (R81). -/
def instrText : Instr → String
  | .create d => "CREATE " ++ hslotText d
  | .frompix d a => "FROMPIX " ++ hslotText d ++ ", " ++ pslotText a
  | .topix d a => "TOPIX " ++ pslotText d ++ ", " ++ hslotText a
  | .blur d a r => "BLUR " ++ hslotText d ++ ", " ++ hslotText a ++ ", " ++ toString r.toNat
  | .diff d a b => "DIFF " ++ pslotText d ++ ", " ++ hslotText a ++ ", " ++ hslotText b

/-- The name of a register in program text (R32, R81). -/
def regText : RegName → String
  | .cmd => "CMD"
  | .status => "STATUS"
  | .width => "WIDTH"
  | .height => "HEIGHT"
  | .faultcmd => "FAULTCMD"
  | .pbw p => "PBW[" ++ toString p.val ++ "]"
  | .pbh p => "PBH[" ++ toString p.val ++ "]"
  | .hbw i => "HBW[" ++ toString i.val ++ "]"
  | .hbh i => "HBH[" ++ toString i.val ++ "]"

/-- A line in program text (R81, R82). -/
def lineText : Line → String
  | .wr r v => "WR " ++ regText r ++ ", " ++ toString v.toNat
  | .rd r => "RD " ++ regText r
  | .pixwr p o b => "PIXWR " ++ pslotText p ++ ", " ++ toString o ++ ", " ++ toString b.toNat
  | .pixrd p o => "PIXRD " ++ pslotText p ++ ", " ++ toString o
  | .command i => instrText i
  | .word w => ".word " ++ toString w.toNat
  | .chain e o p r =>
    "CHAIN " ++ hslotText e ++ ", " ++ hslotText o ++ ", " ++ pslotText p ++ ", " ++ toString r.toNat
  | .bands => "BANDS"

end Sys2Proof.Machine
end

