-- ==== Sys2Proof/Safety.lean ====
section
/-!
DEFINITION. What the statements speak of: the invariants of the state the spec names, a run, and what
counts as a successful run.
-/

namespace Sys2Proof.Machine

/-- The invariant of a high-precision slot (R22): empty, or of positive width and height, within the
capacity, and with every one of its `3*W*H` channel values there. -/
def HBuf.valid (maxPix : Nat) (b : HBuf) : Prop :=
  (b.w = 0 ∧ b.h = 0 ∧ b.px = []) ∨
    (1 ≤ b.w ∧ 1 ≤ b.h ∧ b.w * b.h ≤ maxPix ∧ b.px.length = 3 * (b.w * b.h))

/-- Pixel memory is in its canonical form and inside its region of `3*MAXPIX` bytes (R25). -/
def Memory.valid (maxPix : Nat) (m : Memory) : Prop :=
  Memory.wf m ∧ ∀ c ∈ m, c.1 < 3 * maxPix

/-- The fault record (R29, R30, R160): all zero before the first error, and after it `FAULT = 1` with one of
the five codes. -/
def State.statusValid (s : State) : Prop :=
  (s.status = 0 ∧ s.faultcmd = 0) ∨ ∃ e : CmdError, s.status = faultStatus (errorCode e)

/-- The invariant of the machine. -/
structure State.Inv (s : State) : Prop where
  buffers : ∀ i : HSlot, (s.buf i).valid s.maxPix
  memories : ∀ p : PSlot, Memory.valid s.maxPix (s.slot p).mem
  record : s.statusValid

/-- The high-precision slot a command writes (R73). -/
def hpDest : Instr → Option HSlot
  | .create d => some d
  | .frompix d _ => some d
  | .topix _ _ => none
  | .blur d _ _ => some d
  | .diff _ _ _ => none

/-- The pixel slot a command writes (R73). -/
def pixDest : Instr → Option PSlot
  | .create _ => none
  | .frompix _ _ => none
  | .topix d _ => some d
  | .blur _ _ _ => none
  | .diff d _ _ => some d

/-- The high-precision slots a command reads (R73). -/
def hpReads : Instr → List HSlot
  | .create _ => []
  | .frompix _ _ => []
  | .topix _ a => [a]
  | .blur _ a _ => [a]
  | .diff _ a b => [a, b]

/-- Which command can raise which error besides `IllegalCommand` (R166). -/
def canRaise : Instr → CmdError → Bool
  | .create _, e => e == .invalidDimension || e == .allocationFailure
  | .frompix _ _, e => e == .invalidDimension || e == .allocationFailure
  | .topix _ _, e => e == .emptyBuffer
  | .blur _ _ _, e => e == .emptyBuffer
  | .diff _ _ _, e => e == .emptyBuffer || e == .dimensionMismatch

/-- The recorded word can have raised the recorded error: an illegal word if the error is `IllegalCommand`,
otherwise the word of a command that can raise it (R166, R168). -/
def State.recordConsistent (s : State) : Prop :=
  (s.status = 0 ∧ s.faultcmd = 0) ∨
    ∃ e : CmdError, s.status = faultStatus (errorCode e) ∧
      match decode s.faultcmd with
      | .error _ => e = .illegalCommand
      | .ok i => canRaise i e = true

/-- R76 read field by field: the word is illegal. Its five lines are the conditions (a) to (e). -/
def illegalWord (w : Word) : Prop :=
  (opField w = 0 ∨ 6 ≤ (opField w).toNat) ∨
  ((opField w = 1 ∧ ¬(aField w = 0 ∧ bField w = 0 ∧ immField w = 0)) ∨
    ((opField w = 2 ∨ opField w = 3) ∧ ¬(bField w = 0 ∧ immField w = 0)) ∨
    (opField w = 4 ∧ bField w ≠ 0) ∨ (opField w = 5 ∧ immField w ≠ 0)) ∨
  (((opField w = 1 ∨ opField w = 2 ∨ opField w = 4) ∧ 8 ≤ (dField w).toNat) ∨
    ((opField w = 3 ∨ opField w = 4 ∨ opField w = 5) ∧ 8 ≤ (aField w).toNat) ∨
    (opField w = 5 ∧ 8 ≤ (bField w).toNat)) ∨
  ((opField w = 2 ∧ 4 ≤ (aField w).toNat) ∨
    ((opField w = 3 ∨ opField w = 5) ∧ 4 ≤ (dField w).toNat)) ∨
  (opField w = 4 ∧ dField w = aField w)

/-! ### Frames: what a command leaves as it was -/

/-- Every register and every field that no command without an error writes. -/
structure SameRegisters (s t : State) : Prop where
  width : t.width = s.width
  height : t.height = s.height
  status : t.status = s.status
  faultcmd : t.faultcmd = s.faultcmd
  capLess1 : t.capLess1 = s.capLess1
  epoch : t.epoch = s.epoch
  todo : t.todo = s.todo
  reply : t.reply = s.reply

/-- Nothing differs but `HB[d]`: the other slots, every descriptor, every byte of pixel memory and every
register are as they were (R90). -/
structure OnlyHB (d : HSlot) (s t : State) : Prop where
  others : ∀ i : HSlot, i ≠ d → t.buf i = s.buf i
  pbw : ∀ p : PSlot, (t.slot p).w = (s.slot p).w
  pbh : ∀ p : PSlot, (t.slot p).h = (s.slot p).h
  bytes : ∀ (p : PSlot) (o : Nat), t.pixByte p o = s.pixByte p o
  regs : SameRegisters s t

/-- Nothing differs but `PBW[d]`, `PBH[d]` and the first `n` bytes of `PBMEM[d]` (R58, R90, R97). -/
structure OnlyImage (d : PSlot) (n : Nat) (s t : State) : Prop where
  buffers : ∀ i : HSlot, t.buf i = s.buf i
  pbw : ∀ p : PSlot, p ≠ d → (t.slot p).w = (s.slot p).w
  pbh : ∀ p : PSlot, p ≠ d → (t.slot p).h = (s.slot p).h
  bytes : ∀ (p : PSlot) (o : Nat), ¬(p = d ∧ o < n) → t.pixByte p o = s.pixByte p o
  regs : SameRegisters s t

/-- The error `e` is recorded for the word `w` and nothing else differs (R168). -/
structure FaultEntered (e : CmdError) (w : Word) (s t : State) : Prop where
  fault : faultFlag t.status = true
  code : errField t.status = errorCode e
  rest : statusRead t.status = t.status
  faultcmd : t.faultcmd = w
  buffers : ∀ i : HSlot, t.buf i = s.buf i
  pbw : ∀ p : PSlot, (t.slot p).w = (s.slot p).w
  pbh : ∀ p : PSlot, (t.slot p).h = (s.slot p).h
  bytes : ∀ (p : PSlot) (o : Nat), t.pixByte p o = s.pixByte p o
  width : t.width = s.width
  height : t.height = s.height
  capLess1 : t.capLess1 = s.capLess1
  epoch : t.epoch = s.epoch
  todo : t.todo = s.todo
  reply : t.reply = s.reply

/-! ### The box blur in the spec's own coordinates -/

/-- `S` satisfies the recurrence of R114 for channel `c` of `b`: `S(x,y)` from the input and its left, upper and
diagonal predecessors, `+0.0` where one is out of range. -/
def IsSat (b : HBuf) (c : Chan) (S : Nat → Nat → Binary64) : Prop :=
  ∀ x y, x < b.w → y < b.h →
    S x y = fsub (fadd (fadd (b.at x y c) (if 1 ≤ x then S (x - 1) y else fZero))
      (if 1 ≤ y then S x (y - 1) else fZero))
      (if 1 ≤ x ∧ 1 ≤ y then S (x - 1) (y - 1) else fZero)

/-- The window sum of R117 over the table `S`, its up to four terms in the rule's order. -/
def satWindowSum (S : Nat → Nat → Binary64) (v : Window) : Binary64 :=
  match decide (1 ≤ v.x0), decide (1 ≤ v.y0) with
  | false, false => S v.x1 v.y1
  | true, false => fsub (S v.x1 v.y1) (S (v.x0 - 1) v.y1)
  | false, true => fsub (S v.x1 v.y1) (S v.x1 (v.y0 - 1))
  | true, true =>
    fadd (fsub (fsub (S v.x1 v.y1) (S (v.x0 - 1) v.y1)) (S v.x1 (v.y0 - 1))) (S (v.x0 - 1) (v.y0 - 1))

/-! ### Correct rounding -/

/-- The midpoint beyond the largest finite magnitude, `2^1024 - 2^970`, in units of `2^-1074`: what reaches it
rounds to an infinity (R8). Irreducible for the elaborator only, which would write the number out. -/
@[irreducible] def overflowMag : Nat := (2 ^ 54 - 1) * 2 ^ 2044

/-- `x` is the exact quotient `n / d`, in units of `2^-1074`, rounded to the nearest binary64 value (R8): finite
exactly when the quotient lies below the overflow bound, otherwise an infinity, with the quotient's sign; no finite
value lies nearer, and of two that lie equally near it is the one with the even fraction. -/
structure NearestEven (x : Binary64) (n d : Int) : Prop where
  finite : fIsFinite x = true ↔ n.natAbs < overflowMag * d.natAbs
  infinite : fIsFinite x = false → fIsInf x = true
  sign : n ≠ 0 → (fSign x = true ↔ n * d < 0)
  nearest : fIsFinite x = true → ∀ y, fIsFinite y = true →
    (fVal x * d - n).natAbs ≤ (fVal y * d - n).natAbs
  ties : fIsFinite x = true → ∀ y, fIsFinite y = true → fVal y ≠ fVal x →
    (fVal x * d - n).natAbs = (fVal y * d - n).natAbs → fFrac x % 2 = 0

/-! ### Runs -/

/-- The host does these accesses next. -/
def State.withProgram (s : State) (l : List Access) : State := { s with todo := l }

/-- A run of `n` steps (R199). -/
def runSteps (n : Nat) (s : State) : Host.Outcome State Fault Refusal := Sys2Proof.core.run n s

/-- A successful run (R199): the host's list is exhausted and `STATUS.FAULT = 0`. -/
def State.successful (s : State) : Prop := s.todo = [] ∧ faultFlag s.status = false

/-- An access on the platform's bus, the one kind of access that a model refuses in some cases (R54). -/
def Access.onBus : Access → Bool
  | .busRead _ _ => true
  | .busWrite _ _ _ => true
  | .regRead _ => false
  | .regWrite _ _ => false
  | .pixRead _ _ => false
  | .pixWrite _ _ _ => false
  | .reset => false

end Sys2Proof.Machine
end

