-- ==== Sys2Proof/Certificates/Slice0/Obligations.lean ====
section
/-!
DEFINITION. The statements for the provers. Each comes from the numbered rules its docstring names; what rests
on a choice of the model says so and names the log entry.
-/

open Sys2Proof Sys2Proof.Machine

/-! ### Encoding -/

/-- R83, the worked encodings: ten legal words, encoded and decoded, and ten illegal ones with the condition
of R76 each meets. -/
def Obligations.WorkedEncodings : Prop :=
  (encode (.create 2) = 0x12000000#32 ∧ encode (.frompix 0 0) = 0x20000000#32 ∧
    encode (.frompix 6 0) = 0x26000000#32 ∧ encode (.topix 1 1) = 0x31100000#32 ∧
    encode (.blur 1 0 2) = 0x41000002#32 ∧ encode (.blur 0 1 2) = 0x40100002#32 ∧
    encode (.blur 7 6 8) = 0x47600008#32 ∧ encode (.blur 1 0 65535) = 0x4100FFFF#32 ∧
    encode (.diff 1 1 3) = 0x51130000#32 ∧ encode (.diff 3 5 7) = 0x53570000#32) ∧
  (decode 0x12000000#32 = .ok (.create 2) ∧ decode 0x20000000#32 = .ok (.frompix 0 0) ∧
    decode 0x26000000#32 = .ok (.frompix 6 0) ∧ decode 0x31100000#32 = .ok (.topix 1 1) ∧
    decode 0x41000002#32 = .ok (.blur 1 0 2) ∧ decode 0x40100002#32 = .ok (.blur 0 1 2) ∧
    decode 0x47600008#32 = .ok (.blur 7 6 8) ∧ decode 0x4100FFFF#32 = .ok (.blur 1 0 65535) ∧
    decode 0x51130000#32 = .ok (.diff 1 1 3) ∧ decode 0x53570000#32 = .ok (.diff 3 5 7)) ∧
  (decode 0x00000000#32 = .error .opcode ∧ decode 0x60000000#32 = .error .opcode ∧
    decode 0x18000000#32 = .error .hpSlot ∧ decode 0x10000001#32 = .error .reservedField ∧
    decode 0x20400000#32 = .error .pixSlot ∧ decode 0x34100000#32 = .error .pixSlot ∧
    decode 0x41100002#32 = .error .sameSlot ∧ decode 0x41010002#32 = .error .reservedField ∧
    decode 0x51130001#32 = .error .reservedField ∧ decode 0x51930000#32 = .error .hpSlot)

/-- R79, R81: the decoder reads back every command the encoder writes, with every operand at every value its
field admits. -/
def Obligations.DecodeOfEncode : Prop :=
  ∀ i : Instr, i.wellFormed = true → decode (encode i) = .ok i

/-- R75, R79, R81: a word that decodes is the word of the command it decodes to, so no bit of it is ignored. -/
def Obligations.EncodeOfDecode : Prop :=
  ∀ (w : Word) (i : Instr), decode w = .ok i → i.wellFormed = true ∧ encode i = w

/-- R76: the decoder refuses exactly the words that meet one of the conditions (a) to (e), the all-zero and the
all-ones word among them, and the issue of such a word raises `IllegalCommand` and has no other effect. -/
def Obligations.IllegalWordsExactly : Prop :=
  (∀ w : Word, ((∃ e, decode w = .error e) ↔ illegalWord w) ∧
    ∀ s : State, illegalWord w → faultFlag s.status = false →
      ∃ t, issue w s = .next t ∧ FaultEntered .illegalCommand w s t) ∧
  illegalWord 0x00000000#32 ∧ illegalWord 0xFFFFFFFF#32

/-- R80: what a host write to `CMD` does. -/
def Obligations.CommandIssue : Prop :=
  ∀ (s : State) (w : Word),
    (faultFlag s.status = true → perform (.regWrite 0 w) s = .next s) ∧
    (faultFlag s.status = false → ∀ e, decode w = .error e →
      ∃ t, perform (.regWrite 0 w) s = .next t ∧ FaultEntered .illegalCommand w s t) ∧
    (faultFlag s.status = false → ∀ i, decode w = .ok i → perform (.regWrite 0 w) s = exec i s)

/-- R57, R80: when the host's next access is the issue of a word that decodes to `i`, and no error is
recorded, the step is `exec i` on the state whose list has lost that access and whose last answer is gone;
the same of a word placed by `withFetchWord`. -/
def Obligations.StepRunsDecodedCommand : Prop :=
  ∀ (s : State) (w : Word) (i : Instr), faultFlag s.status = false → decode w = .ok i →
    (∀ rest, s.todo = .regWrite 0 w :: rest → step s = exec i { s with todo := rest, reply := none }) ∧
    step (s.withFetchWord 32 w.toNat) = exec i { s with reply := none }

/-- R130, R131: the words CHAIN (with `e != o`) and BANDS expand to. What CHAIN with `e = o` does is the model's
choice (log entry 15): see ChainOntoItself. -/
def Obligations.PseudoInstructionWords : Prop :=
  (chain 4 5 0 5).map encode = [0x24000000#32, 0x45400005#32, 0x44500005#32, 0x45400005#32, 0x44500005#32,
    0x45400005#32] ∧
  (∀ (e o : HSlot) (p : PSlot) (r : BitVec 16), e ≠ o → chain e o p r =
    [.frompix e p, .blur o e r, .blur e o r, .blur o e r, .blur e o r, .blur o e r]) ∧
  bands.map encode =
    [0x20000000#32, 0x41000002#32, 0x40100002#32, 0x41000002#32, 0x40100002#32, 0x41000002#32,
     0x22000000#32, 0x43200003#32, 0x42300003#32, 0x43200003#32, 0x42300003#32, 0x43200003#32,
     0x24000000#32, 0x45400005#32, 0x44500005#32, 0x45400005#32, 0x44500005#32, 0x45400005#32,
     0x26000000#32, 0x47600008#32, 0x46700008#32, 0x47600008#32, 0x46700008#32, 0x47600008#32,
     0x51130000#32, 0x52350000#32, 0x53570000#32]

/-! ### Reset, registers and pixel memory -/

/-- R38, for every capacity, every earlier reset and every list of the host's: what reset leaves, a byte of
pixel memory being the free value of log entry 2; and what the five commands raise from there. -/
def Obligations.ResetState : Prop :=
  ∀ (cap : BitVec 30) (epoch : Nat) (l : List Access),
    let s := State.powerOn cap epoch l
    (∀ i : HSlot, (s.buf i).w = 0 ∧ (s.buf i).h = 0 ∧ s.regRead (16 + 2 * i) = 0 ∧
      s.regRead (17 + 2 * i) = 0) ∧
    s.status = 0 ∧ s.faultcmd = 0 ∧ s.width = 0 ∧ s.height = 0 ∧
    (∀ p : PSlot, (s.slot p).w = 0 ∧ (s.slot p).h = 0) ∧
    (∀ (p : PSlot) (o : Nat), s.pixByte p o = Config.powerOnByte epoch p o) ∧
    (∀ d, ∃ t, exec (.create d) s = .next t ∧ FaultEntered .invalidDimension (encode (.create d)) s t) ∧
    (∀ d p, ∃ t, exec (.frompix d p) s = .next t ∧
      FaultEntered .invalidDimension (encode (.frompix d p)) s t) ∧
    (∀ p a, ∃ t, exec (.topix p a) s = .next t ∧ FaultEntered .emptyBuffer (encode (.topix p a)) s t) ∧
    (∀ d a r, d ≠ a → ∃ t, exec (.blur d a r) s = .next t ∧
      FaultEntered .emptyBuffer (encode (.blur d a r)) s t) ∧
    (∀ p a b, ∃ t, exec (.diff p a b) s = .next t ∧
      FaultEntered .emptyBuffer (encode (.diff p a b)) s t)

/-- R191, R192: the platform's reset leaves the state of R38, whatever came before, with pixel memory
unspecified anew (a fresh argument of the free value of log entry 2); the host's further accesses and the
capacity stay. -/
def Obligations.PlatformReset : Prop :=
  ∀ s : State, perform .reset s = .next (State.powerOn s.capLess1 (s.epoch + 1) s.todo)

/-- R29 to R32, R36, R37, R63: what every register number reads as; the dimensions of a slot read in full
where the invariant holds. -/
def Obligations.RegisterReads : Prop :=
  ∀ s : State,
    s.regRead 0 = 0 ∧
    (faultFlag (s.regRead 1) = faultFlag s.status ∧ errField (s.regRead 1) = errField s.status ∧
      s.regRead 1 &&& 0xFFFFFF8E#32 = 0) ∧
    s.regRead 2 = s.width ∧ s.regRead 3 = s.height ∧ s.regRead 4 = s.faultcmd ∧
    (∀ n, (n = 5 ∨ n = 6 ∨ n = 7 ∨ 31 < n) → s.regRead n = 0) ∧
    (∀ p : PSlot, s.regRead (8 + 2 * p) = (s.slot p).w ∧ s.regRead (9 + 2 * p) = (s.slot p).h) ∧
    (s.Inv → ∀ i : HSlot, (s.regRead (16 + 2 * i)).toNat = (s.buf i).w ∧
      (s.regRead (17 + 2 * i)).toNat = (s.buf i).h)

/-- R28, R32, R63: a host write to a register other than `CMD` completes; a writable register (`WIDTH`,
`HEIGHT`, `PBW`, `PBH`) reads back what was written and no other register changes; any other number is
ignored. No slot, no byte and no record of an error changes. -/
def Obligations.RegisterWrites : Prop :=
  ∀ (s : State) (n : Nat) (v : Word), n ≠ 0 →
    ∃ t, perform (.regWrite n v) s = .next t ∧
      (if n = 2 ∨ n = 3 ∨ (8 ≤ n ∧ n ≤ 15) then
        t.regRead n = v ∧ ∀ m, m ≠ n → t.regRead m = s.regRead m
      else t = s) ∧
      (∀ i : HSlot, t.buf i = s.buf i) ∧ (∀ (p : PSlot) (o : Nat), t.pixByte p o = s.pixByte p o) ∧
      t.status = s.status ∧ t.faultcmd = s.faultcmd ∧ t.maxPix = s.maxPix ∧ t.todo = s.todo

/-- R25, R51, R63: a pixel write inside the region reads back and changes no other byte and no register; one
outside is ignored and reads as 0. -/
def Obligations.PixelAccess : Prop :=
  ∀ (s : State) (p o : Nat) (b : Byte),
    ∃ t, perform (.pixWrite p o b) s = .next t ∧
      (if p < 4 ∧ o < 3 * s.maxPix then
        t.pixRead p o = b ∧ (∀ q k, (q ≠ p ∨ k ≠ o) → t.pixRead q k = s.pixRead q k) ∧
          (∀ m, t.regRead m = s.regRead m) ∧ (∀ i : HSlot, t.buf i = s.buf i) ∧ t.todo = s.todo ∧
          t.maxPix = s.maxPix
      else t = s ∧ s.pixRead p o = 0)

/-- R55: a read changes nothing but the answer the host gets. -/
def Obligations.ReadsHaveNoSideEffect : Prop :=
  ∀ (s : State) (n p o : Nat),
    perform (.regRead n) s = .next { s with reply := some (.word (s.regRead n)) } ∧
    perform (.pixRead p o) s = .next { s with reply := some (.byte (s.pixRead p o)) }

/-- R51, R54, R56, on every platform's map `m` of the engine: 4 bytes at a register's address are that register's
access, 1 byte at the address of a byte of a pixel region is that byte's access, and every other access is refused. A
place must be the only one at its address: what a platform does that maps two places to one address is left open,
and the model refuses it there (log entry 4). `perform` does so with the open map of the engine's platform. -/
def Obligations.BusAccess : Prop :=
  ∀ (m : Config.BusMap) (s : State) (v : Word),
    (∀ n, n < 32 → (∀ k, k < 32 → m.regAddr k = m.regAddr n → k = n) →
      performBusRead m (m.regAddr n) 4 s = perform (.regRead n) s ∧
      performBusWrite m (m.regAddr n) 4 v s = perform (.regWrite n v) s) ∧
    (∀ p o, p < 4 → o < 3 * s.maxPix →
      (∀ q, q < 4 → m.pixBase q ≤ m.pixBase p + o → m.pixBase p + o < m.pixBase q + 3 * s.maxPix → q = p) →
      performBusRead m (m.pixBase p + o) 1 s = perform (.pixRead p o) s ∧
      performBusWrite m (m.pixBase p + o) 1 v s = perform (.pixWrite p o (v.setWidth 8)) s) ∧
    (∀ addr len,
      ¬(len = 4 ∧ ∃! n, n < 32 ∧ addr = m.regAddr n) →
      ¬(len = 1 ∧ ∃! p, p < 4 ∧ m.pixBase p ≤ addr ∧ addr < m.pixBase p + 3 * s.maxPix) →
      performBusRead m addr len s = .refused .busAccess ∧ performBusWrite m addr len v s = .refused .busAccess) ∧
    (∀ addr len, perform (.busRead addr len) s = performBusRead Config.busMap addr len s ∧
      perform (.busWrite addr len v) s = performBusWrite Config.busMap addr len v s)

/-- R39: every piece of state has exactly the writers listed there: reset empties every high-precision slot, and
an access that is no reset (an access on the platform's bus is one of these, see BusAccess) changes a piece of state
only as listed. -/
def Obligations.WritersOfState : Prop :=
  (∀ s t : State, perform .reset s = .next t → (∀ i : HSlot, t.buf i = HBuf.empty) ∧ t.status = 0 ∧
    t.faultcmd = 0) ∧
  ∀ (a : Access) (s t : State), a.onBus = false → a ≠ .reset → perform a s = .next t →
    (∀ i : HSlot, t.buf i ≠ s.buf i → ∃ w c, a = .regWrite 0 w ∧ decode w = .ok c ∧ hpDest c = some i) ∧
    (∀ p : PSlot, (t.slot p).w ≠ (s.slot p).w →
      (∃ v, a = .regWrite (8 + 2 * p) v) ∨
        ∃ w c, a = .regWrite 0 w ∧ decode w = .ok c ∧ pixDest c = some p) ∧
    (∀ p : PSlot, (t.slot p).h ≠ (s.slot p).h →
      (∃ v, a = .regWrite (9 + 2 * p) v) ∨
        ∃ w c, a = .regWrite 0 w ∧ decode w = .ok c ∧ pixDest c = some p) ∧
    (∀ (p : PSlot) (o : Nat), t.pixByte p o ≠ s.pixByte p o →
      (∃ b, a = .pixWrite p o b) ∨
        ∃ w c, a = .regWrite 0 w ∧ decode w = .ok c ∧ pixDest c = some p) ∧
    (t.width ≠ s.width → ∃ v, a = .regWrite 2 v) ∧
    (t.height ≠ s.height → ∃ v, a = .regWrite 3 v) ∧
    (t.status ≠ s.status ∨ t.faultcmd ≠ s.faultcmd →
      faultFlag s.status = false ∧ ∃ w e, a = .regWrite 0 w ∧ t = raise e w s)

/-- R24: the channel values of a high-precision slot are not readable by the host: two states that differ
only in them give the host the same answer to every access, and stay so, unless the access issues a command. -/
def Obligations.ChannelValuesHidden : Prop :=
  ∀ (s t s' t' : State) (a : Access), t = { s with hb := t.hb } →
    (∀ i : HSlot, (t.buf i).w = (s.buf i).w ∧ (t.buf i).h = (s.buf i).h) →
    (∀ w, a ≠ .regWrite 0 w) → a.onBus = false → perform a s = .next s' → perform a t = .next t' →
    t'.reply = s'.reply ∧ t' = { s' with hb := t'.hb } ∧
      ∀ i : HSlot, (t'.buf i).w = (s'.buf i).w ∧ (t'.buf i).h = (s'.buf i).h

/-! ### Errors -/

/-- R168: fault entry writes `STATUS.FAULT`, `STATUS.ERR` and `FAULTCMD`, and nothing else. -/
def Obligations.FaultEntry : Prop :=
  ∀ (e : CmdError) (w : Word) (s : State), FaultEntered e w s (raise e w s)

/-- R169: with `FAULT = 1`, a run of any length in which the host does not reset the engine keeps `STATUS`,
`FAULTCMD` and every high-precision slot; a write to `CMD` changes nothing at all; the other writes and all reads
work as ever; reset clears the fault; and a state with `FAULT = 1` ends no successful run. -/
def Obligations.FaultIsSticky : Prop :=
  (∀ (n : Nat) (s t : State), faultFlag s.status = true → (∀ a ∈ s.todo, a ≠ .reset) →
    runSteps n s = .next t →
      t.status = s.status ∧ t.faultcmd = s.faultcmd ∧ ∀ i : HSlot, t.buf i = s.buf i) ∧
  (∀ s : State, faultFlag s.status = true →
    (∀ w, perform (.regWrite 0 w) s = .next s) ∧
    (∀ n v, n ≠ 0 → perform (.regWrite n v) s = .next (s.regWrite n v)) ∧
    (∀ p o b, perform (.pixWrite p o b) s = .next (s.pixWrite p o b)) ∧
    (∀ n, perform (.regRead n) s = .next { s with reply := some (.word (s.regRead n)) }) ∧
    (∀ p o, perform (.pixRead p o) s = .next { s with reply := some (.byte (s.pixRead p o)) }) ∧
    (∃ t, perform .reset s = .next t ∧ faultFlag t.status = false) ∧ ¬s.successful)

/-- R161: CREATE and FROMPIX raise `InvalidDimension` when a dimension is not positive, whatever the size. -/
def Obligations.InvalidDimensionRaised : Prop :=
  ∀ (s : State) (d : HSlot) (a : PSlot),
    (s.width.toInt ≤ 0 ∨ s.height.toInt ≤ 0 →
      ∃ t, exec (.create d) s = .next t ∧ FaultEntered .invalidDimension (encode (.create d)) s t) ∧
    ((s.slot a).w.toInt ≤ 0 ∨ (s.slot a).h.toInt ≤ 0 →
      ∃ t, exec (.frompix d a) s = .next t ∧ FaultEntered .invalidDimension (encode (.frompix d a)) s t)

/-- R162: CREATE and FROMPIX raise `AllocationFailure` when the dimensions are positive and `W * H > MAXPIX`, and
from a state with `FAULT = 0` the record names `AllocationFailure` after them in no other case; after TOPIX, BLUR and
DIFF it never does. -/
def Obligations.AllocationFailureRaised : Prop :=
  ∀ (s : State) (d : HSlot) (a : PSlot),
    (0 < s.width.toInt → 0 < s.height.toInt → (s.maxPix : Int) < s.width.toInt * s.height.toInt →
      ∃ t, exec (.create d) s = .next t ∧ FaultEntered .allocationFailure (encode (.create d)) s t) ∧
    (0 < (s.slot a).w.toInt → 0 < (s.slot a).h.toInt →
      (s.maxPix : Int) < (s.slot a).w.toInt * (s.slot a).h.toInt →
      ∃ t, exec (.frompix d a) s = .next t ∧
        FaultEntered .allocationFailure (encode (.frompix d a)) s t) ∧
    (∀ t, faultFlag s.status = false → exec (.create d) s = .next t →
      faultFlag t.status = true → errField t.status = errorCode .allocationFailure →
      0 < s.width.toInt ∧ 0 < s.height.toInt ∧ (s.maxPix : Int) < s.width.toInt * s.height.toInt) ∧
    (∀ t, faultFlag s.status = false → exec (.frompix d a) s = .next t →
      faultFlag t.status = true → errField t.status = errorCode .allocationFailure →
      0 < (s.slot a).w.toInt ∧ 0 < (s.slot a).h.toInt ∧
        (s.maxPix : Int) < (s.slot a).w.toInt * (s.slot a).h.toInt) ∧
    (∀ (p : PSlot) (b : HSlot) (r : BitVec 16) (t : State), faultFlag s.status = false →
      (exec (.topix p b) s = .next t ∨ exec (.blur d b r) s = .next t ∨ exec (.diff p d b) s = .next t) →
      ¬(faultFlag t.status = true ∧ errField t.status = errorCode .allocationFailure))

/-- R163: DIFF raises `DimensionMismatch` when both source slots hold a buffer and the two differ in width or
in height. -/
def Obligations.DimensionMismatchRaised : Prop :=
  ∀ (s : State) (d : PSlot) (a b : HSlot), (s.buf a).w ≠ 0 → (s.buf b).w ≠ 0 →
    ((s.buf a).w ≠ (s.buf b).w ∨ (s.buf a).h ≠ (s.buf b).h) →
    ∃ t, exec (.diff d a b) s = .next t ∧ FaultEntered .dimensionMismatch (encode (.diff d a b)) s t

/-- R165: TOPIX, BLUR and DIFF raise `EmptyBuffer` when a high-precision slot they read is empty. -/
def Obligations.EmptyBufferRaised : Prop :=
  ∀ (s : State) (p : PSlot) (d a b : HSlot) (r : BitVec 16), (s.buf a).w = 0 →
    (∃ t, exec (.topix p a) s = .next t ∧ FaultEntered .emptyBuffer (encode (.topix p a)) s t) ∧
    (d ≠ a → ∃ t, exec (.blur d a r) s = .next t ∧ FaultEntered .emptyBuffer (encode (.blur d a r)) s t) ∧
    (∃ t, exec (.diff p a b) s = .next t ∧ FaultEntered .emptyBuffer (encode (.diff p a b)) s t) ∧
    (∃ t, exec (.diff p b a) s = .next t ∧ FaultEntered .emptyBuffer (encode (.diff p b a)) s t)

/-! ### Invariants of every step -/

/-- R22, R25, R29: the invariant holds right after reset, for every capacity. -/
def Obligations.ResetMeetsInv : Prop :=
  ∀ (cap : BitVec 30) (epoch : Nat) (l : List Access), (State.powerOn cap epoch l).Inv

/-- R22, R25, R29, R160: every step keeps the invariant: each high-precision slot empty or filled in full
within the capacity, pixel memory in its canonical form inside its region, the record of an error one of the
five codes. -/
def Obligations.StepKeepsInv : Prop :=
  ∀ s t : State, s.Inv → step s = .next t → t.Inv

/-- R166, R168: after reset, and after every step from a state where it holds, `FAULTCMD` holds a word that can
have raised the error in `STATUS.ERR`: an illegal word for `IllegalCommand`, else a command that the table of
R166 lets raise it. -/
def Obligations.FaultRecordNamesItsCause : Prop :=
  (∀ (cap : BitVec 30) (epoch : Nat) (l : List Access), (State.powerOn cap epoch l).recordConsistent) ∧
    ∀ s t : State, s.recordConsistent → step s = .next t → t.recordConsistent

/-- R23, R181, R199: where the invariant holds no step fails a bounds check: it answers a next state, or it
refuses an access on the platform's bus (R54). -/
def Obligations.StepAnswers : Prop :=
  ∀ s : State, s.Inv → (∃ t, step s = .next t) ∨
    ∃ a rest, s.todo = a :: rest ∧ a.onBus = true ∧ step s = .refused .busAccess

/-! ### The commands -/

/-- R91, R93: CREATE with positive dimensions that fit completes: `HB[d]` has the dimensions of `WIDTH` and
`HEIGHT`, every channel value is `+0.0`, and nothing else differs. -/
def Obligations.CreateFillsWithZero : Prop :=
  ∀ (s : State) (d : HSlot), 0 < s.width.toInt → 0 < s.height.toInt →
    s.width.toInt * s.height.toInt ≤ s.maxPix →
    ∃ t, exec (.create d) s = .next t ∧ OnlyHB d s t ∧
      ((t.buf d).w : Int) = s.width.toInt ∧ ((t.buf d).h : Int) = s.height.toInt ∧
      (t.buf d).px.length = 3 * ((t.buf d).w * (t.buf d).h) ∧
      ∀ x y (c : Chan), x < (t.buf d).w → y < (t.buf d).h →
        (t.buf d).at x y c = 0x0000000000000000#64

/-- R92, R52, R95: FROMPIX with positive dimensions that fit completes: `HB[d]` has the dimensions of `PBW[a]` and
`PBH[a]`, channel `c` of the pixel `(x, y)` is `f_of_u8` of the byte at offset `3*(y*W + x) + c`, and nothing
else differs. -/
def Obligations.FrompixWidens : Prop :=
  ∀ (s : State) (d : HSlot) (a : PSlot), 0 < (s.slot a).w.toInt → 0 < (s.slot a).h.toInt →
    (s.slot a).w.toInt * (s.slot a).h.toInt ≤ s.maxPix →
    ∃ t, exec (.frompix d a) s = .next t ∧ OnlyHB d s t ∧
      ((t.buf d).w : Int) = (s.slot a).w.toInt ∧ ((t.buf d).h : Int) = (s.slot a).h.toInt ∧
      (t.buf d).px.length = 3 * ((t.buf d).w * (t.buf d).h) ∧
      ∀ x y (c : Chan), x < (t.buf d).w → y < (t.buf d).h →
        (t.buf d).at x y c = fOfU8 (s.pixByte a (3 * (y * (t.buf d).w + x) + c))

/-- R94, R52, R97: TOPIX of a slot that holds a buffer completes: `PBW[d]`, `PBH[d]` are its dimensions, the byte
at offset `3*(y*W + x) + c` is `narrow8` of channel `c` of the pixel `(x, y)`, and nothing else differs, later
bytes among it. -/
def Obligations.TopixNarrows : Prop :=
  ∀ (s : State) (d : PSlot) (a : HSlot), (s.buf a).valid s.maxPix → (s.buf a).w ≠ 0 →
    ∃ t, exec (.topix d a) s = .next t ∧ OnlyImage d (3 * ((s.buf a).w * (s.buf a).h)) s t ∧
      (t.slot d).w.toNat = (s.buf a).w ∧ (t.slot d).h.toNat = (s.buf a).h ∧
      ∀ x y (c : Chan), x < (s.buf a).w → y < (s.buf a).h →
        t.pixByte d (3 * (y * (s.buf a).w + x) + c) = narrow8 ((s.buf a).at x y c)

/-- R112: BLUR with radius 0 completes with an exact copy of the source. -/
def Obligations.BlurRadiusZeroCopies : Prop :=
  ∀ (s : State) (d a : HSlot), d ≠ a → (s.buf a).valid s.maxPix → (s.buf a).w ≠ 0 →
    ∃ t, exec (.blur d a 0) s = .next t ∧ OnlyHB d s t ∧ t.buf d = s.buf a

/-- R110, R114 to R118: BLUR with a radius of 1 or more completes: `HB[d]` has the dimensions of `HB[a]`, and
each channel of each pixel is `fdiv` of the window sum by the window count, the window sum being that of R117
over a table that satisfies the recurrence of R114; nothing else differs. -/
def Obligations.BlurIsWindowMean : Prop :=
  ∀ (s : State) (d a : HSlot) (r : BitVec 16), d ≠ a → r ≠ 0 → (s.buf a).valid s.maxPix → (s.buf a).w ≠ 0 →
    ∃ t, exec (.blur d a r) s = .next t ∧ OnlyHB d s t ∧
      (t.buf d).w = (s.buf a).w ∧ (t.buf d).h = (s.buf a).h ∧
      (t.buf d).px.length = 3 * ((t.buf d).w * (t.buf d).h) ∧
      ∀ c : Chan, ∃ S, IsSat (s.buf a) c S ∧ ∀ x y, x < (s.buf a).w → y < (s.buf a).h →
        (t.buf d).at x y c =
          fdiv (satWindowSum S (windowAt x y r.toNat (s.buf a).w (s.buf a).h))
            (fOfCount (windowAt x y r.toNat (s.buf a).w (s.buf a).h).count)

/-- R140, R141, R145: DIFF of two slots that hold buffers of one shape completes (the two may be one slot):
`PBW[d]`, `PBH[d]` are the dimensions, the byte at offset `3*(y*W + x) + c` is `Q` of the value of `HB[b]` minus
the value of `HB[a]`, and nothing else differs. -/
def Obligations.DiffQuantizes : Prop :=
  ∀ (s : State) (d : PSlot) (a b : HSlot), (s.buf a).valid s.maxPix → (s.buf b).valid s.maxPix →
    (s.buf a).w ≠ 0 → (s.buf b).w = (s.buf a).w → (s.buf b).h = (s.buf a).h →
    ∃ t, exec (.diff d a b) s = .next t ∧ OnlyImage d (3 * ((s.buf a).w * (s.buf a).h)) s t ∧
      (t.slot d).w.toNat = (s.buf a).w ∧ (t.slot d).h.toNat = (s.buf a).h ∧
      ∀ x y (c : Chan), x < (s.buf a).w → y < (s.buf a).h →
        t.pixByte d (3 * (y * (s.buf a).w + x) + c) =
          quantize (fsub ((s.buf b).at x y c) ((s.buf a).at x y c))

/-! ### Arithmetic -/

/-- R8: `fadd`, `fsub` and `fdiv` of finite values are the exact result rounded once, to nearest with ties to even;
a quotient has the sign of its operands, whether or not it is zero; a sum or a difference that is exactly zero is
`+0.0` unless both terms carry the minus sign. -/
def Obligations.RoundsToNearestEven : Prop :=
  ∀ a b : Binary64, fIsFinite a = true → fIsFinite b = true →
    NearestEven (fadd a b) (fVal a + fVal b) 1 ∧ NearestEven (fsub a b) (fVal a - fVal b) 1 ∧
    (fMag b ≠ 0 → NearestEven (fdiv a b) (fVal a * fUnit) (fVal b) ∧
      fSign (fdiv a b) = (fSign a != fSign b)) ∧
    (fVal a + fVal b = 0 → fadd a b = if fSign a && fSign b then fNeg fZero else fZero) ∧
    (fVal a - fVal b = 0 → fsub a b = if fSign a && !fSign b then fNeg fZero else fZero)

/-- R10: `ffloor` is the exact floor of a finite value; zeros, infinities and NaNs are returned as they are. -/
def Obligations.FloorIsExact : Prop :=
  (∀ a : Binary64,
    (fIsFinite a = true → fIsFinite (ffloor a) = true ∧ fVal (ffloor a) = fVal a / fUnit * fUnit) ∧
    (fIsFinite a = false ∨ fMag a = 0 → ffloor a = a)) ∧
  ffloor 0xBFE0000000000000#64 = fMinusOne ∧ ffloor 0x406FF00000000000#64 = f255

/-- R11: the conversions are exact: a byte and a count have the value of the integer, with the sign bit clear
(so the byte 0 gives `+0.0`), and `u8_of_f` gives an integer value from 0 to 255, either zero among them, back. -/
def Obligations.ConversionsAreExact : Prop :=
  (∀ b : Byte, fIsFinite (fOfU8 b) = true ∧ fSign (fOfU8 b) = false ∧ fVal (fOfU8 b) = b.toNat * fUnit) ∧
  (∀ n : Nat, 1 ≤ n → n ≤ 2 ^ 30 →
    fIsFinite (fOfCount n) = true ∧ fSign (fOfCount n) = false ∧ fVal (fOfCount n) = n * fUnit) ∧
  (∀ (a : Binary64) (n : Nat), n ≤ 255 → fVal a = n * fUnit → (u8OfF a).toNat = n)

/-- R96: `narrow8` floors, then clamps to `0..255`; a NaN gives 0. -/
def Obligations.NarrowFloorsThenClamps : Prop :=
  ∀ v : Binary64,
    (fIsNaN v = true → narrow8 v = 0) ∧
    (fIsFinite v = true → ((narrow8 v).toNat : Int) = min 255 (max 0 (fVal v / fUnit))) ∧
    (fIsInf v = true → narrow8 v = if fSign v then 0 else 255)

/-- R142, R143: the branches of `Q`, their conditions read on exact values. -/
def Obligations.QuantizeBranches : Prop :=
  ∀ v : Binary64,
    (fIsNaN v = true → quantize v = 0) ∧
    (fIsNaN v = false →
      (255 * (fUnit : Int) ≤ fVal v → quantize v = 255) ∧
      (-(fUnit : Int) ≤ fVal v → fVal v < 0 → quantize v = 0) ∧
      (0 ≤ fVal v → fVal v < 255 * fUnit → ((quantize v).toNat : Int) = fVal v / fUnit) ∧
      (fVal v < -(fUnit : Int) →
        (255 * (fUnit : Int) ≤ fVal (fadd v f257) → quantize v = 255) ∧
        (fVal (fadd v f257) < 0 → quantize v = 0) ∧
        (0 ≤ fVal (fadd v f257) → fVal (fadd v f257) < 255 * fUnit →
          ((quantize v).toNat : Int) = fVal (fadd v f257) / fUnit)))

/-- R147: the wrap of `Q` on finite values: `-2.0 <= v < -1.0` gives 255, an integer `n` from `-257` to `-2` gives
`n + 257`, `v < -257.0` gives 0. -/
def Obligations.QuantizeWraps : Prop :=
  ∀ v : Binary64, fIsFinite v = true →
    (-2 * (fUnit : Int) ≤ fVal v → fVal v < -(fUnit : Int) → quantize v = 255) ∧
    (∀ n : Int, -257 ≤ n → n ≤ -2 → fVal v = n * fUnit → ((quantize v).toNat : Int) = n + 257) ∧
    (fVal v < -257 * (fUnit : Int) → quantize v = 0)

/-- R148: the source's boundary values for `Q`: 255.999, -0.5, -1.5, -200.0 and 100.3. -/
def Obligations.QuantizeBoundaryValues : Prop :=
  quantize 0x406FFFF7CED91687#64 = 255 ∧ quantize 0xBFE0000000000000#64 = 0 ∧
  quantize 0xBFF8000000000000#64 = 255 ∧ quantize 0xC069000000000000#64 = 57 ∧
  quantize 0x4059133333333333#64 = 100

/-- R8, R9, U10, the operands that are no finite value: an operation on a NaN, the difference of two infinities of
one sign and the quotients 0/0 and inf/inf are NaNs, whatever the free value of log entry 3; every comparison with a
NaN is false; an infinity beside a finite value, a finite value over an infinity and over a zero give what IEEE 754
gives. -/
def Obligations.SpecialOperands : Prop :=
  (∀ a b : Binary64, fIsNaN a = true ∨ fIsNaN b = true →
    fIsNaN (fadd a b) = true ∧ fIsNaN (fsub a b) = true ∧ fIsNaN (fdiv a b) = true ∧
      fge a b = false ∧ flt a b = false) ∧
  (∀ a b : Binary64, fIsInf a = true → fIsInf b = true → fIsNaN (fdiv a b) = true ∧
    (fSign a = fSign b → fadd a b = a ∧ fIsNaN (fsub a b) = true) ∧
    (fSign a ≠ fSign b → fIsNaN (fadd a b) = true ∧ fsub a b = a)) ∧
  (∀ a b : Binary64, fIsInf a = true → fIsFinite b = true →
    fadd a b = a ∧ fadd b a = a ∧ fsub a b = a ∧ fsub b a = fNeg a ∧
      fdiv a b = (if fSign b then fNeg a else a) ∧
      fdiv b a = (if fSign b = fSign a then fZero else fNeg fZero)) ∧
  (∀ a b : Binary64, fIsFinite a = true → fIsFinite b = true → fMag b = 0 →
    (fMag a = 0 → fIsNaN (fdiv a b) = true) ∧
    (fMag a ≠ 0 → fIsInf (fdiv a b) = true ∧ fSign (fdiv a b) = (fSign a != fSign b)))

/-! ### What the blur and the difference do as a whole -/

/-- R115, R116: the window is the clipped one, in exact integer arithmetic; it holds the pixel and lies in the
image; its count is at least 1, at most the size of the image, and `(2r+1)^2` away from the borders. -/
def Obligations.WindowIsClipped : Prop :=
  ∀ x y r w h : Nat, x < w → y < h →
    let v := windowAt x y r w h
    ((v.x0 : Int) = max 0 ((x : Int) - r) ∧ (v.x1 : Int) = min ((w : Int) - 1) ((x : Int) + r) ∧
      (v.y0 : Int) = max 0 ((y : Int) - r) ∧ (v.y1 : Int) = min ((h : Int) - 1) ((y : Int) + r)) ∧
    (v.x0 ≤ x ∧ x ≤ v.x1 ∧ v.x1 ≤ w - 1 ∧ v.y0 ≤ y ∧ y ≤ v.y1 ∧ v.y1 ≤ h - 1) ∧
    v.count = (v.x1 - v.x0 + 1) * (v.y1 - v.y0 + 1) ∧
    1 ≤ v.count ∧ v.count ≤ (2 * r + 1) ^ 2 ∧ v.count ≤ w * h ∧
    (r ≤ x → x + r < w → r ≤ y → y + r < h → v.count = (2 * r + 1) ^ 2)

/-- R121 (a), R113: where every value of a channel is an integer from 0 to 255, the blur of that channel is the one
rounded quotient of the exact window sum by the count. A zero is `+0.0` here; a channel that holds `-0.0` is not
spoken of. -/
def Obligations.FirstPassIsRoundedMean : Prop :=
  ∀ (s : State) (d a : HSlot) (r : BitVec 16) (c : Chan) (v : Nat → Nat → Nat), d ≠ a → r ≠ 0 →
    (s.buf a).valid s.maxPix → (s.buf a).w ≠ 0 →
    (∀ x y, x < (s.buf a).w → y < (s.buf a).h → v x y ≤ 255 ∧ (s.buf a).at x y c = fOfInt (v x y)) →
    ∃ t, exec (.blur d a r) s = .next t ∧ ∀ x y, x < (s.buf a).w → y < (s.buf a).h →
      let q := windowAt x y r.toNat (s.buf a).w (s.buf a).h
      (t.buf d).at x y c =
        fdiv (fOfInt (∑ j ∈ Finset.Icc q.y0 q.y1, ∑ i ∈ Finset.Icc q.x0 q.x1, v i j : Nat))
          (fOfCount q.count)

/-- R122: a constant image whose channels are integers `v` with `|v| * 2 * W * H <= 2^53` is a fixed point of BLUR
at every radius; so is every constant image loaded by FROMPIX. -/
def Obligations.ConstantImageIsFixed : Prop :=
  (∀ (s : State) (d a : HSlot) (r : BitVec 16) (v : Chan → Int), d ≠ a → (s.buf a).valid s.maxPix →
    (s.buf a).w ≠ 0 → (∀ c, (v c).natAbs * (2 * ((s.buf a).w * (s.buf a).h)) ≤ 2 ^ 53) →
    (∀ x y (c : Chan), x < (s.buf a).w → y < (s.buf a).h → (s.buf a).at x y c = fOfInt (v c)) →
    ∃ t, exec (.blur d a r) s = .next t ∧ t.buf d = s.buf a) ∧
  (∀ (s t : State) (d a : HSlot) (p : PSlot) (r : BitVec 16) (v : Chan → Byte), d ≠ a →
    0 < (s.slot p).w.toInt → 0 < (s.slot p).h.toInt →
    (s.slot p).w.toInt * (s.slot p).h.toInt ≤ s.maxPix →
    (∀ (k : Nat) (c : Chan), (k : Int) < (s.slot p).w.toInt * (s.slot p).h.toInt → s.pixByte p (3 * k + c) = v c) →
    exec (.frompix a p) s = .next t →
    ∃ u, exec (.blur d a r) t = .next u ∧ u.buf d = t.buf a)

/-- R123: (a) a 1x1 image is unchanged by BLUR at any radius of 1 or more, but that a zero becomes `+0.0`; (b) with
`r >= W - 1` and `r >= H - 1` every pixel is the table's last entry divided by `W*H`. -/
def Obligations.BorderProperties : Prop :=
  ∀ (s : State) (d a : HSlot) (r : BitVec 16) (c : Chan), d ≠ a → r ≠ 0 → (s.buf a).valid s.maxPix →
    (s.buf a).w ≠ 0 →
    ∃ t, exec (.blur d a r) s = .next t ∧
      ((s.buf a).w = 1 → (s.buf a).h = 1 → fIsNaN ((s.buf a).at 0 0 c) = false →
        (t.buf d).at 0 0 c = if fMag ((s.buf a).at 0 0 c) = 0 then fZero else (s.buf a).at 0 0 c) ∧
      ((s.buf a).w - 1 ≤ r.toNat → (s.buf a).h - 1 ≤ r.toNat →
        ∃ S, IsSat (s.buf a) c S ∧ ∀ x y, x < (s.buf a).w → y < (s.buf a).h →
          (t.buf d).at x y c = fdiv (S ((s.buf a).w - 1) ((s.buf a).h - 1))
            (fOfCount ((s.buf a).w * (s.buf a).h)))

/-- R119: channel `c` of a blur depends only on channel `c` of the source. -/
def Obligations.ChannelsAreIndependent : Prop :=
  ∀ (s s' t t' : State) (d a : HSlot) (r : BitVec 16) (c : Chan),
    (s.buf a).valid s.maxPix → (s'.buf a).valid s'.maxPix → d ≠ a → (s.buf a).w ≠ 0 →
    (s'.buf a).w = (s.buf a).w → (s'.buf a).h = (s.buf a).h →
    (∀ x y, x < (s.buf a).w → y < (s.buf a).h → (s'.buf a).at x y c = (s.buf a).at x y c) →
    exec (.blur d a r) s = .next t → exec (.blur d a r) s' = .next t' →
    ∀ x y, x < (s.buf a).w → y < (s.buf a).h → (t'.buf d).at x y c = (t.buf d).at x y c

/-- R146: DIFF of two slots of equal contents, or of a slot with itself, gives an all-zero image; a finite value
less itself is `+0.0`. -/
def Obligations.DiffOfEqualIsZero : Prop :=
  (∀ (s : State) (d : PSlot) (a b : HSlot), (s.buf a).valid s.maxPix → (s.buf a).w ≠ 0 →
    s.buf b = s.buf a →
    ∃ t, exec (.diff d a b) s = .next t ∧ t.status = s.status ∧
      ∀ o, o < 3 * ((s.buf a).w * (s.buf a).h) → t.pixByte d o = 0) ∧
  (∀ x : Binary64, fIsFinite x = true → fsub x x = fZero)

/-- R92, R94: TOPIX directly after FROMPIX reproduces the image: its dimensions and its bytes. -/
def Obligations.NarrowAfterWiden : Prop :=
  ∀ (s : State) (d : HSlot) (p q : PSlot), 0 < (s.slot p).w.toInt → 0 < (s.slot p).h.toInt →
    (s.slot p).w.toInt * (s.slot p).h.toInt ≤ s.maxPix →
    ∃ t u, exec (.frompix d p) s = .next t ∧ exec (.topix q d) t = .next u ∧
      (u.slot q).w = (s.slot p).w ∧ (u.slot q).h = (s.slot p).h ∧
      ∀ o : Nat, (o : Int) < 3 * ((s.slot p).w.toInt * (s.slot p).h.toInt) →
        u.pixByte q o = s.pixByte p o

/-- R135: two commands of different chains commute: where neither writes a slot that the other writes or reads,
and neither raises an error, the two orders end in the same state. Where channel values are NaNs this rests on log
entry 3: which NaN an operation delivers depends on the operation and its operands alone. -/
def Obligations.DisjointCommandsCommute : Prop :=
  ∀ (s t u : State) (i j : Instr) (di dj : HSlot), hpDest i = some di → hpDest j = some dj → di ≠ dj →
    di ∉ hpReads j → dj ∉ hpReads i → faultFlag s.status = false →
    exec i s = .next t → t.status = s.status → exec j s = .next u → u.status = s.status →
    ∃ v, exec j t = .next v ∧ exec i u = .next v

/-- R137 (a), (b): BANDS on a constant 8-bit image of any legal size and any colour completes without an error, and
its three outputs are all-zero images of the dimensions of the input. -/
def Obligations.FlatImageHasZeroBands : Prop :=
  ∀ (s : State) (v : Chan → Byte), faultFlag s.status = false →
    0 < (s.slot 0).w.toInt → 0 < (s.slot 0).h.toInt →
    (s.slot 0).w.toInt * (s.slot 0).h.toInt ≤ s.maxPix →
    (∀ (k : Nat) (c : Chan), (k : Int) < (s.slot 0).w.toInt * (s.slot 0).h.toInt → s.pixByte 0 (3 * k + c) = v c) →
    ∃ t, runSteps 27 (s.withProgram (issueAll bands)) = .next t ∧ t.todo = [] ∧ t.status = s.status ∧
      ∀ p : PSlot, p ≠ 0 → (t.slot p).w = (s.slot 0).w ∧ (t.slot p).h = (s.slot 0).h ∧
        ∀ o : Nat, (o : Int) < 3 * ((s.slot 0).w.toInt * (s.slot 0).h.toInt) → t.pixByte p o = 0

/-- CHAIN with `e = o`, which R130 does not give: the model's choice (log entry 15), not the spec's. It expands to the
copy and five words of a BLUR onto its own source; where the copy completes, the first of these is illegal (R76 (e))
and is what the fault records (R168), and the others are ignored (R169). -/
def Obligations.ChainOntoItself : Prop :=
  ∀ (e : HSlot) (p : PSlot) (r : BitVec 16),
    chain e e p r = .frompix e p :: List.replicate 5 (.blur e e r) ∧
    ∀ s t : State, faultFlag s.status = false → 0 < (s.slot p).w.toInt → 0 < (s.slot p).h.toInt →
      (s.slot p).w.toInt * (s.slot p).h.toInt ≤ s.maxPix → exec (.frompix e p) s = .next t →
      ∃ u, runSteps 6 (s.withProgram (issueAll (chain e e p r))) = .next u ∧ u.todo = [] ∧
        faultFlag u.status = true ∧ errField u.status = errorCode .illegalCommand ∧
        u.faultcmd = encode (.blur e e r) ∧ ∀ i : HSlot, u.buf i = t.buf i
end

