-- ==== Sys2Proof/Laws/State.lean ====
section
/-!
SUPPORT. The small lemmas of every state update, one per field and update, so that no later proof unfolds a
record update.
-/

namespace Sys2Proof.Machine

/-! ### `setHB` -/

section
variable (s : State) (d i : HSlot) (b : HBuf) (p : PSlot) (o : Nat)

@[simp] theorem setHB_buf_self : (s.setHB d b).buf d = b := by
  simp [State.setHB, State.buf]

theorem setHB_buf_ne (h : i ≠ d) : (s.setHB d b).buf i = s.buf i := by
  simp only [State.setHB, State.buf, Fin.getElem_fin]
  exact Vector.getElem_set_ne _ _ (fun e => h (Fin.ext e.symm))

theorem setHB_buf : (s.setHB d b).buf i = if i = d then b else s.buf i := by
  by_cases h : i = d
  · subst h; simp
  · simp only [h, if_false]; exact setHB_buf_ne s d i b h

@[simp] theorem setHB_pb : (s.setHB d b).pb = s.pb := rfl
@[simp] theorem setHB_slot : (s.setHB d b).slot p = s.slot p := rfl
@[simp] theorem setHB_width : (s.setHB d b).width = s.width := rfl
@[simp] theorem setHB_height : (s.setHB d b).height = s.height := rfl
@[simp] theorem setHB_status : (s.setHB d b).status = s.status := rfl
@[simp] theorem setHB_faultcmd : (s.setHB d b).faultcmd = s.faultcmd := rfl
@[simp] theorem setHB_capLess1 : (s.setHB d b).capLess1 = s.capLess1 := rfl
@[simp] theorem setHB_maxPix : (s.setHB d b).maxPix = s.maxPix := rfl
@[simp] theorem setHB_epoch : (s.setHB d b).epoch = s.epoch := rfl
@[simp] theorem setHB_todo : (s.setHB d b).todo = s.todo := rfl
@[simp] theorem setHB_reply : (s.setHB d b).reply = s.reply := rfl
@[simp] theorem setHB_pixByte : (s.setHB d b).pixByte p o = s.pixByte p o := rfl
end

/-! ### `setPB` and `setImage` -/

section
variable (s : State) (i : HSlot) (d p : PSlot) (x : PixSlot) (w h : Nat) (bytes : List Byte)

@[simp] theorem setPB_slot_self : (s.setPB d x).slot d = x := by
  simp [State.setPB, State.slot]

theorem setPB_slot_ne (hp : p ≠ d) : (s.setPB d x).slot p = s.slot p := by
  simp only [State.setPB, State.slot, Fin.getElem_fin]
  exact Vector.getElem_set_ne _ _ (fun e => hp (Fin.ext e.symm))

theorem setPB_slot : (s.setPB d x).slot p = if p = d then x else s.slot p := by
  by_cases hp : p = d
  · subst hp; simp
  · simp only [hp, if_false]; exact setPB_slot_ne s d p x hp

@[simp] theorem setPB_hb : (s.setPB d x).hb = s.hb := rfl
@[simp] theorem setPB_buf : (s.setPB d x).buf i = s.buf i := rfl
@[simp] theorem setPB_width : (s.setPB d x).width = s.width := rfl
@[simp] theorem setPB_height : (s.setPB d x).height = s.height := rfl
@[simp] theorem setPB_status : (s.setPB d x).status = s.status := rfl
@[simp] theorem setPB_faultcmd : (s.setPB d x).faultcmd = s.faultcmd := rfl
@[simp] theorem setPB_capLess1 : (s.setPB d x).capLess1 = s.capLess1 := rfl
@[simp] theorem setPB_maxPix : (s.setPB d x).maxPix = s.maxPix := rfl
@[simp] theorem setPB_epoch : (s.setPB d x).epoch = s.epoch := rfl
@[simp] theorem setPB_todo : (s.setPB d x).todo = s.todo := rfl
@[simp] theorem setPB_reply : (s.setPB d x).reply = s.reply := rfl

@[simp] theorem setImage_hb : (s.setImage d w h bytes).hb = s.hb := rfl
@[simp] theorem setImage_buf : (s.setImage d w h bytes).buf i = s.buf i := rfl
@[simp] theorem setImage_width : (s.setImage d w h bytes).width = s.width := rfl
@[simp] theorem setImage_height : (s.setImage d w h bytes).height = s.height := rfl
@[simp] theorem setImage_status : (s.setImage d w h bytes).status = s.status := rfl
@[simp] theorem setImage_faultcmd : (s.setImage d w h bytes).faultcmd = s.faultcmd := rfl
@[simp] theorem setImage_capLess1 : (s.setImage d w h bytes).capLess1 = s.capLess1 := rfl
@[simp] theorem setImage_maxPix : (s.setImage d w h bytes).maxPix = s.maxPix := rfl
@[simp] theorem setImage_epoch : (s.setImage d w h bytes).epoch = s.epoch := rfl
@[simp] theorem setImage_todo : (s.setImage d w h bytes).todo = s.todo := rfl
@[simp] theorem setImage_reply : (s.setImage d w h bytes).reply = s.reply := rfl

@[simp] theorem setImage_slot_self : (s.setImage d w h bytes).slot d =
    ⟨BitVec.ofNat 32 w, BitVec.ofNat 32 h, memWriteImage (s.slot d).mem bytes⟩ := by
  simp [State.setImage]

theorem setImage_slot_ne (hp : p ≠ d) : (s.setImage d w h bytes).slot p = s.slot p :=
  setPB_slot_ne _ _ _ _ hp
end

/-! ### `raise` -/

section
variable (e : CmdError) (w : Word) (s : State) (i : HSlot) (p : PSlot) (o : Nat)

@[simp] theorem raise_status : (raise e w s).status = faultStatus (errorCode e) := rfl
@[simp] theorem raise_faultcmd : (raise e w s).faultcmd = w := rfl
@[simp] theorem raise_hb : (raise e w s).hb = s.hb := rfl
@[simp] theorem raise_pb : (raise e w s).pb = s.pb := rfl
@[simp] theorem raise_buf : (raise e w s).buf i = s.buf i := rfl
@[simp] theorem raise_slot : (raise e w s).slot p = s.slot p := rfl
@[simp] theorem raise_width : (raise e w s).width = s.width := rfl
@[simp] theorem raise_height : (raise e w s).height = s.height := rfl
@[simp] theorem raise_capLess1 : (raise e w s).capLess1 = s.capLess1 := rfl
@[simp] theorem raise_maxPix : (raise e w s).maxPix = s.maxPix := rfl
@[simp] theorem raise_epoch : (raise e w s).epoch = s.epoch := rfl
@[simp] theorem raise_todo : (raise e w s).todo = s.todo := rfl
@[simp] theorem raise_reply : (raise e w s).reply = s.reply := rfl
@[simp] theorem raise_pixByte : (raise e w s).pixByte p o = s.pixByte p o := rfl
end

/-! ### The host's list -/

section
variable (s : State) (l : List Access) (w : Word) (i : HSlot) (p : PSlot) (o : Nat)

@[simp] theorem takeAccess_hb : (s.takeAccess l).hb = s.hb := rfl
@[simp] theorem takeAccess_pb : (s.takeAccess l).pb = s.pb := rfl
@[simp] theorem takeAccess_buf : (s.takeAccess l).buf i = s.buf i := rfl
@[simp] theorem takeAccess_slot : (s.takeAccess l).slot p = s.slot p := rfl
@[simp] theorem takeAccess_width : (s.takeAccess l).width = s.width := rfl
@[simp] theorem takeAccess_height : (s.takeAccess l).height = s.height := rfl
@[simp] theorem takeAccess_status : (s.takeAccess l).status = s.status := rfl
@[simp] theorem takeAccess_faultcmd : (s.takeAccess l).faultcmd = s.faultcmd := rfl
@[simp] theorem takeAccess_capLess1 : (s.takeAccess l).capLess1 = s.capLess1 := rfl
@[simp] theorem takeAccess_maxPix : (s.takeAccess l).maxPix = s.maxPix := rfl
@[simp] theorem takeAccess_epoch : (s.takeAccess l).epoch = s.epoch := rfl
@[simp] theorem takeAccess_todo : (s.takeAccess l).todo = l := rfl
@[simp] theorem takeAccess_reply : (s.takeAccess l).reply = none := rfl
@[simp] theorem takeAccess_pixByte : (s.takeAccess l).pixByte p o = s.pixByte p o := rfl

@[simp] theorem withCommand_todo : (s.withCommand w).todo = .regWrite 0 w :: s.todo := rfl
@[simp] theorem withCommand_takeAccess : (s.withCommand w).takeAccess s.todo = s.takeAccess s.todo := rfl

@[simp] theorem withProgram_todo : (s.withProgram l).todo = l := rfl
@[simp] theorem withProgram_hb : (s.withProgram l).hb = s.hb := rfl
@[simp] theorem withProgram_pb : (s.withProgram l).pb = s.pb := rfl
@[simp] theorem withProgram_buf : (s.withProgram l).buf i = s.buf i := rfl
@[simp] theorem withProgram_slot : (s.withProgram l).slot p = s.slot p := rfl
@[simp] theorem withProgram_width : (s.withProgram l).width = s.width := rfl
@[simp] theorem withProgram_height : (s.withProgram l).height = s.height := rfl
@[simp] theorem withProgram_status : (s.withProgram l).status = s.status := rfl
@[simp] theorem withProgram_faultcmd : (s.withProgram l).faultcmd = s.faultcmd := rfl
@[simp] theorem withProgram_maxPix : (s.withProgram l).maxPix = s.maxPix := rfl
@[simp] theorem withProgram_epoch : (s.withProgram l).epoch = s.epoch := rfl
@[simp] theorem withProgram_pixByte : (s.withProgram l).pixByte p o = s.pixByte p o := rfl
end

/-! ### Reset -/

section
variable (c : BitVec 30) (n : Nat) (l : List Access) (i : HSlot) (p : PSlot) (o : Nat)

@[simp] theorem powerOn_buf : (State.powerOn c n l).buf i = HBuf.empty := by
  simp [State.powerOn, State.buf]
@[simp] theorem powerOn_slot : (State.powerOn c n l).slot p = PixSlot.fresh := by
  simp [State.powerOn, State.slot]
@[simp] theorem powerOn_width : (State.powerOn c n l).width = 0 := rfl
@[simp] theorem powerOn_height : (State.powerOn c n l).height = 0 := rfl
@[simp] theorem powerOn_status : (State.powerOn c n l).status = 0 := rfl
@[simp] theorem powerOn_faultcmd : (State.powerOn c n l).faultcmd = 0 := rfl
@[simp] theorem powerOn_capLess1 : (State.powerOn c n l).capLess1 = c := rfl
@[simp] theorem powerOn_epoch : (State.powerOn c n l).epoch = n := rfl
@[simp] theorem powerOn_todo : (State.powerOn c n l).todo = l := rfl
@[simp] theorem powerOn_reply : (State.powerOn c n l).reply = none := rfl

@[simp] theorem powerOn_pixByte : (State.powerOn c n l).pixByte p o = Config.powerOnByte n p o := by
  simp [State.pixByte, PixSlot.fresh, memByte]
end

/-- The capacity is from 1 to `2^30` (R5). -/
theorem maxPix_pos (s : State) : 1 ≤ s.maxPix := by simp [State.maxPix]

theorem maxPix_le (s : State) : s.maxPix ≤ Config.maxPixLimit := by
  have := s.capLess1.isLt
  simp only [State.maxPix, Config.maxPixLimit]
  omega

end Sys2Proof.Machine
end

