-- ==== Sys2Proof/Laws/Memory.lean ====
section
/-!
SUPPORT. Pixel memory: a read after a write, and the canonical form kept by every memory operation.
-/

namespace Sys2Proof.Machine

/-- A read after a write of one byte: the byte written at its offset, the old byte elsewhere. -/
theorem memByte_memWrite (m : Memory) (o : Nat) (b : Byte) (a : Nat) :
    memByte (memWrite m o b) a = if a = o then some b else memByte m a := by
  induction m with
  | nil => by_cases h : o = a <;> simp [memWrite, memByte, h, eq_comm]
  | cons c m ih =>
    obtain ⟨k, x⟩ := c
    by_cases h1 : o < k
    · simp only [memWrite, h1, if_true, memByte, eq_comm]
    · by_cases h2 : o = k
      · subst h2
        by_cases h : a = o
        · simp [memWrite, memByte, h]
        · simp [memWrite, memByte, h, Ne.symm h]
      · simp only [memWrite, h1, h2, if_false, memByte, ih]
        by_cases h3 : k = a
        · subst h3; simp [Ne.symm h2]
        · simp [h3]

/-- Every offset of a memory after a write is the one written or an old one. -/
theorem mem_memWrite {m : Memory} {o : Nat} {b : Byte} {c : Host.Cell} (h : c ∈ memWrite m o b) :
    c = (o, b) ∨ c ∈ m := by
  induction m with
  | nil => simpa [memWrite] using h
  | cons x m ih =>
    obtain ⟨k, y⟩ := x
    unfold memWrite at h
    split at h
    · simpa using h
    · split at h
      · rcases List.mem_cons.mp h with h | h
        · exact .inl h
        · exact .inr (List.mem_cons_of_mem _ h)
      · rcases List.mem_cons.mp h with h | h
        · exact .inr (by simp [h])
        · exact (ih h).imp_right (List.mem_cons_of_mem _)

/-- A write of one byte keeps the canonical form. -/
theorem memWrite_wf {m : Memory} (o : Nat) (b : Byte) (hm : Memory.wf m) : Memory.wf (memWrite m o b) := by
  induction m with
  | nil => simp [memWrite, Memory.wf]
  | cons x m ih =>
    obtain ⟨k, y⟩ := x
    have hm' := List.pairwise_cons.mp hm
    unfold memWrite
    split
    next h =>
      refine List.pairwise_cons.mpr ⟨fun c hc => ?_, hm⟩
      rcases List.mem_cons.mp hc with rfl | hc
      · exact h
      · exact Nat.lt_trans h (hm'.1 c hc)
    next h =>
      split
      next h2 => subst h2; exact List.pairwise_cons.mpr ⟨hm'.1, hm'.2⟩
      next h2 =>
        refine List.pairwise_cons.mpr ⟨fun c hc => ?_, ih hm'.2⟩
        rcases mem_memWrite hc with rfl | hc
        · exact Nat.lt_of_le_of_ne (Nat.le_of_not_lt h) (Ne.symm h2)
        · exact hm'.1 c hc

/-- The offsets of a run of cells. -/
theorem mem_cellsFrom {bytes : List Byte} {o : Nat} {c : Host.Cell} (h : c ∈ cellsFrom o bytes) :
    o ≤ c.1 ∧ c.1 < o + bytes.length := by
  induction bytes generalizing o with
  | nil => simp [cellsFrom] at h
  | cons b bs ih =>
    rcases List.mem_cons.mp h with rfl | h
    · simp
    · have := ih h
      simp only [List.length_cons]
      omega

/-- A run of bytes reads back byte by byte. -/
theorem memByte_cellsFrom (bytes : List Byte) (m : Memory) (o a : Nat) :
    memByte (cellsFrom o bytes ++ m) a =
      if o ≤ a ∧ a < o + bytes.length then bytes[a - o]? else memByte m a := by
  induction bytes generalizing o with
  | nil =>
    simp [cellsFrom]
  | cons b bs ih =>
    simp only [cellsFrom, List.cons_append, memByte, ih, List.length_cons]
    by_cases h : o = a
    · subst h; simp
    · simp only [h, if_false]
      by_cases h2 : o + 1 ≤ a ∧ a < o + 1 + bs.length
      · have h3 : o ≤ a ∧ a < o + (bs.length + 1) := by omega
        obtain ⟨k, rfl⟩ : ∃ k, a = o + 1 + k := ⟨a - (o + 1), by omega⟩
        simp only [h2, h3, and_self, if_true]
        rw [show o + 1 + k - (o + 1) = k by omega, show o + 1 + k - o = k + 1 by omega,
          List.getElem?_cons_succ]
      · have h3 : ¬(o ≤ a ∧ a < o + (bs.length + 1)) := by omega
        simp only [h2, h3, if_false]

theorem memByte_filter_ge (m : Memory) (n a : Nat) (h : n ≤ a) :
    memByte (m.filter (fun c => decide (n ≤ c.1))) a = memByte m a := by
  induction m with
  | nil => rfl
  | cons c m ih =>
    obtain ⟨k, x⟩ := c
    by_cases hk : n ≤ k
    · simp [hk, memByte, ih]
    · have : k ≠ a := by omega
      simp [hk, memByte, ih, this]

/-- A read after an image is written: its bytes inside it, the old bytes past its end (R97). -/
theorem memByte_memWriteImage (m : Memory) (bytes : List Byte) (a : Nat) :
    memByte (memWriteImage m bytes) a =
      if a < bytes.length then bytes[a]? else memByte m a := by
  simp only [memWriteImage, memByte_cellsFrom, Nat.zero_le, true_and, Nat.zero_add, Nat.sub_zero]
  split
  · rfl
  · next h => exact memByte_filter_ge m _ a (Nat.le_of_not_lt h)

theorem cellsFrom_wf (bytes : List Byte) (o : Nat) : Memory.wf (cellsFrom o bytes) := by
  induction bytes generalizing o with
  | nil => simp [cellsFrom, Memory.wf]
  | cons b bs ih =>
    refine List.pairwise_cons.mpr ⟨fun c hc => ?_, ih (o + 1)⟩
    have := mem_cellsFrom hc
    simp only
    omega

/-- Writing an image keeps the canonical form. -/
theorem memWriteImage_wf {m : Memory} (bytes : List Byte) (hm : Memory.wf m) :
    Memory.wf (memWriteImage m bytes) := by
  refine List.pairwise_append.mpr ⟨cellsFrom_wf bytes 0, hm.filter _, fun a ha b hb => ?_⟩
  have h1 := mem_cellsFrom ha
  have h2 := (List.mem_filter.mp hb).2
  simp only [decide_eq_true_eq] at h2
  omega

theorem mem_memWriteImage {m : Memory} {bytes : List Byte} {c : Host.Cell}
    (h : c ∈ memWriteImage m bytes) : c.1 < bytes.length ∨ c ∈ m := by
  rcases List.mem_append.mp h with h | h
  · have := mem_cellsFrom h
    exact .inl (by omega)
  · exact .inr (List.mem_filter.mp h).1

/-- A write of one byte inside the region keeps pixel memory valid. -/
theorem memWrite_valid {m : Memory} {cap o : Nat} (b : Byte) (hm : Memory.valid cap m) (ho : o < 3 * cap) :
    Memory.valid cap (memWrite m o b) := by
  refine ⟨memWrite_wf o b hm.1, fun c hc => ?_⟩
  rcases mem_memWrite hc with rfl | hc
  · exact ho
  · exact hm.2 c hc

/-- Writing an image that has room keeps pixel memory valid. -/
theorem memWriteImage_valid {m : Memory} {cap : Nat} {bytes : List Byte} (hm : Memory.valid cap m)
    (hl : bytes.length ≤ 3 * cap) : Memory.valid cap (memWriteImage m bytes) := by
  refine ⟨memWriteImage_wf bytes hm.1, fun c hc => ?_⟩
  rcases mem_memWriteImage hc with h | h
  · omega
  · exact hm.2 c h

/-- Pixel memory after reset is in its canonical form and inside its region. -/
theorem fresh_valid (cap : Nat) : Memory.valid cap PixSlot.fresh.mem := by
  simp [Memory.valid, Memory.wf, PixSlot.fresh]

/-- Reading one byte of a state after an image is written to `PB[d]`. -/
theorem setImage_pixByte (s : State) (d p : PSlot) (w h : Nat) (bytes : List Byte) (o : Nat) :
    (s.setImage d w h bytes).pixByte p o =
      if p = d ∧ o < bytes.length then (bytes[o]?).getD 0 else s.pixByte p o := by
  by_cases hp : p = d
  · subst hp
    simp only [State.pixByte, setImage_slot_self, memByte_memWriteImage, setImage_epoch, true_and]
    by_cases ho : o < bytes.length
    · simp [ho]
    · simp [ho]
  · simp [State.pixByte, setImage_slot_ne s d p w h bytes hp, hp]

end Sys2Proof.Machine
end

