-- ==== Sys2Proof/Laws/Ops.lean ====
section
/-!
SUPPORT. What each shared operation can do, said once: the operand forms, fault entry, the meanings, and the
issue of a command.
-/

namespace Sys2Proof.Machine

/-! ### Operand forms -/

/-- Dimensions are accepted exactly when both are positive and the image has room (R91, R92). -/
theorem imageDims_ok_iff {cap : Nat} {w h : Word} {W H : Nat} :
    imageDims cap w h = .ok (W, H) ↔
      0 < w.toInt ∧ 0 < h.toInt ∧ w.toInt * h.toInt ≤ cap ∧ (W : Int) = w.toInt ∧ (H : Int) = h.toInt := by
  unfold imageDims
  split
  next h1 => simp only [reduceCtorEq, false_iff]; omega
  next h1 =>
    split
    next h2 => simp only [reduceCtorEq, false_iff]; omega
    next h2 =>
      simp only [Except.ok.injEq, Prod.mk.injEq]
      omega

/-- The two errors of a pair of dimensions (R161, R162). -/
theorem imageDims_error_iff {cap : Nat} {w h : Word} {e : CmdError} :
    imageDims cap w h = .error e ↔
      (e = .invalidDimension ∧ (w.toInt ≤ 0 ∨ h.toInt ≤ 0)) ∨
      (e = .allocationFailure ∧ 0 < w.toInt ∧ 0 < h.toInt ∧ (cap : Int) < w.toInt * h.toInt) := by
  unfold imageDims
  split
  next h1 =>
    simp only [Except.error.injEq]
    constructor
    · rintro rfl; exact .inl ⟨rfl, h1⟩
    · rintro (⟨rfl, -⟩ | ⟨-, h2⟩)
      · rfl
      · omega
  next h1 =>
    split
    next h2 =>
      simp only [Except.error.injEq]
      constructor
      · rintro rfl; exact .inr ⟨rfl, by omega, by omega, h2⟩
      · rintro (⟨-, h3⟩ | ⟨rfl, -⟩)
        · exact absurd h3 h1
        · rfl
    next h2 =>
      simp only [reduceCtorEq, false_iff]
      rintro (⟨-, h3⟩ | ⟨-, -, -, h3⟩)
      · exact h1 h3
      · exact h2 h3

/-- The dimensions accepted are the shape of a valid buffer (R22). -/
theorem imageDims_ok_nat {cap : Nat} {w h : Word} {W H : Nat} (hd : imageDims cap w h = .ok (W, H)) :
    1 ≤ W ∧ 1 ≤ H ∧ W * H ≤ cap := by
  obtain ⟨h1, h2, h3, h4, h5⟩ := imageDims_ok_iff.mp hd
  refine ⟨by omega, by omega, ?_⟩
  rw [← h4, ← h5] at h3
  exact_mod_cast h3

/-- A source slot is read when it is not empty, and is `EmptyBuffer` otherwise (R165). -/
theorem sourceBuffer_cases (s : State) (a : HSlot) :
    ((s.buf a).w = 0 ∧ sourceBuffer s a = .error .emptyBuffer) ∨
      ((s.buf a).w ≠ 0 ∧ sourceBuffer s a = .ok (s.buf a)) := by
  unfold sourceBuffer
  split
  next h => exact .inl ⟨h, rfl⟩
  next h => exact .inr ⟨h, rfl⟩

/-- The three results of a pair of source slots, in the order of R167. -/
theorem sourcePair_cases (s : State) (a b : HSlot) :
    (((s.buf a).w = 0 ∨ (s.buf b).w = 0) ∧ sourcePair s a b = .error .emptyBuffer) ∨
    ((s.buf a).w ≠ 0 ∧ (s.buf b).w ≠ 0 ∧ ((s.buf a).w ≠ (s.buf b).w ∨ (s.buf a).h ≠ (s.buf b).h) ∧
      sourcePair s a b = .error .dimensionMismatch) ∨
    ((s.buf a).w ≠ 0 ∧ (s.buf b).w ≠ 0 ∧ (s.buf a).w = (s.buf b).w ∧ (s.buf a).h = (s.buf b).h ∧
      sourcePair s a b = .ok (s.buf a, s.buf b)) := by
  unfold sourcePair
  split
  next h => exact .inl ⟨h, rfl⟩
  next h =>
    have h' := not_or.mp h
    split
    next h2 => exact .inr (.inl ⟨h'.1, h'.2, h2, rfl⟩)
    next h2 =>
      have h2' := not_or.mp h2
      exact .inr (.inr ⟨h'.1, h'.2, not_not.mp h2'.1, not_not.mp h2'.2, rfl⟩)

/-- A valid slot that is not empty passes the bounds check (R23, R181). -/
theorem inBounds_of_valid {cap : Nat} {b : HBuf} (hb : b.valid cap) (hw : b.w ≠ 0) :
    b.inBounds cap = true := by
  rcases hb with ⟨h, -, -⟩ | ⟨-, -, h1, h2⟩
  · exact absurd h hw
  · simp [HBuf.inBounds, h1, h2]

theorem inBounds_iff {cap : Nat} {b : HBuf} :
    b.inBounds cap = true ↔ b.px.length = 3 * (b.w * b.h) ∧ b.w * b.h ≤ cap := by
  simp [HBuf.inBounds]

@[simp] theorem imageBytes_length (s : State) (p : PSlot) (n : Nat) : (imageBytes s p n).length = n := by
  simp [imageBytes]

theorem imageBytes_getElem? (s : State) (p : PSlot) (n o : Nat) (h : o < n) :
    (imageBytes s p n)[o]? = some (s.pixByte p o) := by
  simp [imageBytes, h]

/-! ### Fault entry -/

theorem faultFlag_faultStatus (c : BitVec 3) : faultFlag (faultStatus c) = true := by
  revert c; decide

theorem errField_faultStatus (c : BitVec 3) : errField (faultStatus c) = c := by
  revert c; decide

theorem statusRead_faultStatus (c : BitVec 3) : statusRead (faultStatus c) = faultStatus c := by
  revert c; decide

/-- Different errors have different codes (R160). -/
theorem errorCode_injective {e f : CmdError} (h : errorCode e = errorCode f) : e = f := by
  revert h; cases e <;> cases f <;> decide

/-! ### Frames -/

theorem setHB_onlyHB (s : State) (d : HSlot) (b : HBuf) : OnlyHB d s (s.setHB d b) where
  others i h := setHB_buf_ne s d i b h
  pbw _ := rfl
  pbh _ := rfl
  bytes _ _ := rfl
  regs := ⟨rfl, rfl, rfl, rfl, rfl, rfl, rfl, rfl⟩

theorem setImage_onlyImage (s : State) (d : PSlot) (w h : Nat) (bytes : List Byte) :
    OnlyImage d bytes.length s (s.setImage d w h bytes) where
  buffers _ := rfl
  pbw p hp := by rw [setImage_slot_ne s d p w h bytes hp]
  pbh p hp := by rw [setImage_slot_ne s d p w h bytes hp]
  bytes p o h' := by rw [setImage_pixByte, if_neg h']
  regs := ⟨rfl, rfl, rfl, rfl, rfl, rfl, rfl, rfl⟩

/-! ### The meanings -/

/-- What CREATE can do. -/
theorem execCreate_cases (d : HSlot) (s : State) :
    (∃ e, imageDims s.maxPix s.width s.height = .error e ∧
      execCreate d s = .next (raise e (encode (.create d)) s)) ∨
    (∃ W H, imageDims s.maxPix s.width s.height = .ok (W, H) ∧
      execCreate d s = .next (s.setHB d ⟨W, H, List.replicate (3 * (W * H)) fZero⟩)) := by
  unfold execCreate
  split
  next e h => exact .inl ⟨e, h, rfl⟩
  next W H h => exact .inr ⟨W, H, h, rfl⟩

/-- What FROMPIX can do. -/
theorem execFrompix_cases (d : HSlot) (a : PSlot) (s : State) :
    (∃ e, imageDims s.maxPix (s.slot a).w (s.slot a).h = .error e ∧
      execFrompix d a s = .next (raise e (encode (.frompix d a)) s)) ∨
    (∃ W H, imageDims s.maxPix (s.slot a).w (s.slot a).h = .ok (W, H) ∧
      execFrompix d a s = .next (s.setHB d ⟨W, H, (imageBytes s a (3 * (W * H))).map fOfU8⟩)) := by
  unfold execFrompix
  split
  next e h => exact .inl ⟨e, h, rfl⟩
  next W H h => exact .inr ⟨W, H, h, rfl⟩

/-- What TOPIX can do. -/
theorem execTopix_cases (d : PSlot) (a : HSlot) (s : State) :
    ((s.buf a).w = 0 ∧ execTopix d a s = .next (raise .emptyBuffer (encode (.topix d a)) s)) ∨
    ((s.buf a).w ≠ 0 ∧ (s.buf a).inBounds s.maxPix = false ∧ execTopix d a s = .fault .boundsCheck) ∨
    ((s.buf a).w ≠ 0 ∧ (s.buf a).inBounds s.maxPix = true ∧
      execTopix d a s = .next (s.setImage d (s.buf a).w (s.buf a).h ((s.buf a).px.map narrow8))) := by
  rcases sourceBuffer_cases s a with ⟨h, hs⟩ | ⟨h, hs⟩
  · exact .inl ⟨h, by simp [execTopix, hs]⟩
  · cases hb : (s.buf a).inBounds s.maxPix
    · exact .inr (.inl ⟨h, rfl, by simp [execTopix, hs, hb]⟩)
    · exact .inr (.inr ⟨h, rfl, by simp [execTopix, hs, hb]⟩)

/-- What BLUR can do. -/
theorem execBlur_cases (d a : HSlot) (r : BitVec 16) (s : State) :
    (d = a ∧ execBlur d a r s = .next (raise .illegalCommand (encode (.blur d a r)) s)) ∨
    (d ≠ a ∧ (s.buf a).w = 0 ∧ execBlur d a r s = .next (raise .emptyBuffer (encode (.blur d a r)) s)) ∨
    (d ≠ a ∧ (s.buf a).w ≠ 0 ∧ (s.buf a).inBounds s.maxPix = false ∧
      execBlur d a r s = .fault .boundsCheck) ∨
    (d ≠ a ∧ (s.buf a).w ≠ 0 ∧ (s.buf a).inBounds s.maxPix = true ∧
      execBlur d a r s = .next (s.setHB d (boxBlur (s.buf a) r.toNat))) := by
  by_cases hd : d = a
  · exact .inl ⟨hd, by simp [execBlur, hd]⟩
  · refine .inr ?_
    rcases sourceBuffer_cases s a with ⟨h, hs⟩ | ⟨h, hs⟩
    · exact .inl ⟨hd, h, by simp [execBlur, hd, hs]⟩
    · cases hb : (s.buf a).inBounds s.maxPix
      · exact .inr (.inl ⟨hd, h, rfl, by simp [execBlur, hd, hs, hb]⟩)
      · exact .inr (.inr ⟨hd, h, rfl, by simp [execBlur, hd, hs, hb]⟩)

/-- What DIFF can do. -/
theorem execDiff_cases (d : PSlot) (a b : HSlot) (s : State) :
    (∃ e, (e = .emptyBuffer ∨ e = .dimensionMismatch) ∧ sourcePair s a b = .error e ∧
      execDiff d a b s = .next (raise e (encode (.diff d a b)) s)) ∨
    (sourcePair s a b = .ok (s.buf a, s.buf b) ∧
      ((s.buf a).inBounds s.maxPix && (s.buf b).inBounds s.maxPix) = false ∧
      execDiff d a b s = .fault .boundsCheck) ∨
    (sourcePair s a b = .ok (s.buf a, s.buf b) ∧
      ((s.buf a).inBounds s.maxPix && (s.buf b).inBounds s.maxPix) = true ∧
      execDiff d a b s = .next (s.setImage d (s.buf a).w (s.buf a).h
        (List.zipWith diffByte (s.buf a).px (s.buf b).px))) := by
  rcases sourcePair_cases s a b with ⟨-, hs⟩ | ⟨-, -, -, hs⟩ | ⟨-, -, -, -, hs⟩
  · exact .inl ⟨_, .inl rfl, hs, by simp [execDiff, hs]⟩
  · exact .inl ⟨_, .inr rfl, hs, by simp [execDiff, hs]⟩
  · cases hb : ((s.buf a).inBounds s.maxPix && (s.buf b).inBounds s.maxPix)
    · exact .inr (.inl ⟨hs, rfl, by simp only [execDiff, hs, hb]; rfl⟩)
    · exact .inr (.inr ⟨hs, rfl, by simp only [execDiff, hs, hb]; rfl⟩)

/-- What any command can do when it answers a next state: record an error, fill its high-precision
destination, or write its image. -/
theorem exec_next_cases {i : Instr} {s t : State} (h : exec i s = .next t) :
    (∃ e, t = raise e (encode i) s ∧
      (canRaise i e = true ∨ (e = .illegalCommand ∧ i.wellFormed = false))) ∨
    (∃ d b, hpDest i = some d ∧ t = s.setHB d b) ∨
    (∃ d w h bytes, pixDest i = some d ∧ t = s.setImage d w h bytes) := by
  cases i with
  | create d =>
    rcases execCreate_cases d s with ⟨e, he, hx⟩ | ⟨W, H, -, hx⟩
    · have hx' := hx.symm.trans h
      refine .inl ⟨e, by injection hx' with hx'; exact hx'.symm, .inl ?_⟩
      rcases imageDims_error_iff.mp he with ⟨rfl, -⟩ | ⟨rfl, -⟩ <;> rfl
    · have hx' := hx.symm.trans h
      exact .inr (.inl ⟨d, _, rfl, by injection hx' with hx'; exact hx'.symm⟩)
  | frompix d a =>
    rcases execFrompix_cases d a s with ⟨e, he, hx⟩ | ⟨W, H, -, hx⟩
    · have hx' := hx.symm.trans h
      refine .inl ⟨e, by injection hx' with hx'; exact hx'.symm, .inl ?_⟩
      rcases imageDims_error_iff.mp he with ⟨rfl, -⟩ | ⟨rfl, -⟩ <;> rfl
    · have hx' := hx.symm.trans h
      exact .inr (.inl ⟨d, _, rfl, by injection hx' with hx'; exact hx'.symm⟩)
  | topix d a =>
    rcases execTopix_cases d a s with ⟨-, hx⟩ | ⟨-, -, hx⟩ | ⟨-, -, hx⟩ <;> have hx' := hx.symm.trans h
    · exact .inl ⟨_, by injection hx' with hx'; exact hx'.symm, .inl rfl⟩
    · injection hx'
    · exact .inr (.inr ⟨d, _, _, _, rfl, by injection hx' with hx'; exact hx'.symm⟩)
  | blur d a r =>
    rcases execBlur_cases d a r s with ⟨hd, hx⟩ | ⟨-, -, hx⟩ | ⟨-, -, -, hx⟩ | ⟨-, -, -, hx⟩ <;>
      have hx' := hx.symm.trans h
    · exact .inl ⟨_, by injection hx' with hx'; exact hx'.symm, .inr ⟨rfl, by simp [Instr.wellFormed, hd]⟩⟩
    · exact .inl ⟨_, by injection hx' with hx'; exact hx'.symm, .inl rfl⟩
    · injection hx'
    · exact .inr (.inl ⟨d, _, rfl, by injection hx' with hx'; exact hx'.symm⟩)
  | diff d a b =>
    rcases execDiff_cases d a b s with ⟨e, he, -, hx⟩ | ⟨-, -, hx⟩ | ⟨-, -, hx⟩ <;>
      have hx' := hx.symm.trans h
    · refine .inl ⟨e, by injection hx' with hx'; exact hx'.symm, .inl ?_⟩
      rcases he with rfl | rfl <;> rfl
    · injection hx'
    · exact .inr (.inr ⟨d, _, _, _, rfl, by injection hx' with hx'; exact hx'.symm⟩)

/-! ### Registers, pixel memory and the bus -/

/-- A number that names a register is that register's number, so different numbers name different registers
(R32). -/
theorem regNumber_of_regOfNumber {n : Nat} {r : RegName} (h : regOfNumber n = some r) : regNumber r = n := by
  have hn : n < 32 := by
    by_contra hn
    unfold regOfNumber at h
    simp [show ¬n = 0 by omega, show ¬n = 1 by omega, show ¬n = 2 by omega, show ¬n = 3 by omega,
      show ¬n = 4 by omega, show ¬n < 8 by omega, show ¬n < 16 by omega, show ¬n < 32 by omega] at h
  interval_cases n <;> first | (cases h; rfl) | cases h

/-- What a pixel write can do (R63): store one byte inside the region, or nothing. -/
theorem pixWrite_cases (s : State) (n o : Nat) (b : Byte) :
    (∃ p : PSlot, p.val = n ∧ o < 3 * s.maxPix ∧
      s.pixWrite n o b = s.setPB p { s.slot p with mem := memWrite (s.slot p).mem o b }) ∨
    (¬(n < 4 ∧ o < 3 * s.maxPix) ∧ s.pixWrite n o b = s) := by
  unfold State.pixWrite pslotOf
  by_cases hn : n < 4
  · by_cases ho : o < 3 * s.maxPix
    · exact .inl ⟨⟨n, hn⟩, rfl, ho, by simp [hn, ho]⟩
    · exact .inr ⟨fun h => ho h.2, by simp [hn, ho]⟩
  · exact .inr ⟨fun h => hn h.1, by simp [hn]⟩

/-- What a register write other than to `CMD` leaves alone. -/
theorem regWrite_frame (s : State) (n : Nat) (v : Word) :
    (∀ i : HSlot, (s.regWrite n v).buf i = s.buf i) ∧
    (∀ p : PSlot, ((s.regWrite n v).slot p).mem = (s.slot p).mem) ∧
    (s.regWrite n v).status = s.status ∧ (s.regWrite n v).faultcmd = s.faultcmd ∧
    (s.regWrite n v).capLess1 = s.capLess1 ∧ (s.regWrite n v).epoch = s.epoch ∧
    (s.regWrite n v).todo = s.todo ∧ (s.regWrite n v).reply = s.reply := by
  unfold State.regWrite
  cases regOfNumber n with
  | none => simp
  | some r =>
    refine ⟨?_, fun p => ?_, ?_, ?_, ?_, ?_, ?_, ?_⟩
    case refine_2 =>
      cases r with
      | pbw q => by_cases h : p = q <;> simp [State.writeReg, setPB_slot, h]
      | pbh q => by_cases h : p = q <;> simp [State.writeReg, setPB_slot, h]
      | _ => rfl
    all_goals cases r <;> first | rfl | exact fun _ => rfl

/-- A search of a range finds exactly one number when one number alone meets the test. -/
theorem filter_range_eq_singleton {n k : Nat} {P : Nat → Prop} [DecidablePred P] :
    (List.range n).filter (fun i => decide (P i)) = [k] ↔ (k < n ∧ P k) ∧ ∀ i, i < n → P i → i = k := by
  constructor
  · intro h
    have hm : ∀ i, i ∈ (List.range n).filter (fun i => decide (P i)) ↔ i = k := fun i => by
      rw [h, List.mem_singleton]
    simp only [List.mem_filter, List.mem_range, decide_eq_true_eq] at hm
    exact ⟨(hm k).mpr rfl, fun i hi hp => (hm i).mp ⟨hi, hp⟩⟩
  · rintro ⟨hk, hu⟩
    refine List.perm_singleton.mp ((List.perm_ext_iff_of_nodup (List.nodup_range.filter _)
      (List.nodup_singleton k)).mpr fun i => ?_)
    simp only [List.mem_filter, List.mem_range, decide_eq_true_eq, List.mem_singleton]
    exact ⟨fun h => hu i h.1 h.2, fun h => h ▸ hk⟩

/-- When a bus access stands for one place alone (R51): 4 bytes at the address of one register, or 1 byte inside
one pixel region. -/
theorem busTargets_eq_singleton {m : Config.BusMap} {cap addr len : Nat} {x : BusTarget} :
    busTargets m cap addr len = [x] ↔
      (∃ n, len = 4 ∧ x = .reg n ∧ (n < 32 ∧ addr = m.regAddr n) ∧
        ∀ k, k < 32 → addr = m.regAddr k → k = n) ∨
      (∃ p, len = 1 ∧ x = .pix p (addr - m.pixBase p) ∧
        (p < 4 ∧ m.pixBase p ≤ addr ∧ addr < m.pixBase p + 3 * cap) ∧
        ∀ q, q < 4 → (m.pixBase q ≤ addr ∧ addr < m.pixBase q + 3 * cap) → q = p) := by
  unfold busTargets
  split
  next h4 =>
    simp only [List.map_eq_singleton_iff, filter_range_eq_singleton]
    constructor
    · rintro ⟨n, hn, rfl⟩; exact .inl ⟨n, h4, rfl, hn⟩
    · rintro (⟨n, -, rfl, hn⟩ | ⟨p, h1, -⟩)
      · exact ⟨n, hn, rfl⟩
      · omega
  next h4 =>
    split
    next h1 =>
      simp only [List.map_eq_singleton_iff, filter_range_eq_singleton]
      constructor
      · rintro ⟨p, hp, rfl⟩; exact .inr ⟨p, h1, rfl, hp⟩
      · rintro (⟨n, h, -⟩ | ⟨p, -, rfl, hp⟩)
        · omega
        · exact ⟨p, hp, rfl⟩
    next h1 =>
      simp only [reduceCtorEq, false_iff]
      rintro (⟨n, h, -⟩ | ⟨p, h, -⟩) <;> omega

/-- What a bus access can do: it is refused, or it stands for one place alone, and then it is that place's
access. -/
theorem performBus_cases (m : Config.BusMap) (addr len : Nat) (v : Word) (s : State) :
    (∃ n, busTargets m s.maxPix addr len = [.reg n] ∧
      performBusRead m addr len s = perform (.regRead n) s ∧
      performBusWrite m addr len v s = perform (.regWrite n v) s) ∨
    (∃ p o, busTargets m s.maxPix addr len = [.pix p o] ∧
      performBusRead m addr len s = perform (.pixRead p o) s ∧
      performBusWrite m addr len v s = perform (.pixWrite p o (v.setWidth 8)) s) ∨
    ((∀ x, busTargets m s.maxPix addr len ≠ [x]) ∧
      performBusRead m addr len s = .refused .busAccess ∧
      performBusWrite m addr len v s = .refused .busAccess) := by
  unfold performBusRead performBusWrite
  match busTargets m s.maxPix addr len with
  | [.reg n] => exact .inl ⟨n, rfl, rfl, rfl⟩
  | [.pix p o] => exact .inr (.inl ⟨p, o, rfl, rfl, rfl⟩)
  | [] => exact .inr (.inr ⟨by simp, rfl, rfl⟩)
  | .reg _ :: _ :: _ => exact .inr (.inr ⟨by simp, rfl, rfl⟩)
  | .pix _ _ :: _ :: _ => exact .inr (.inr ⟨by simp, rfl, rfl⟩)

/-! ### The issue of a command -/

/-- What a write to `CMD` can do (R80). -/
theorem issue_cases (w : Word) (s : State) :
    (faultFlag s.status = true ∧ issue w s = .next s) ∨
    (faultFlag s.status = false ∧ (∃ e, decode w = .error e) ∧
      issue w s = .next (raise .illegalCommand w s)) ∨
    (faultFlag s.status = false ∧ ∃ i, decode w = .ok i ∧ issue w s = exec i s) := by
  cases hf : faultFlag s.status
  · cases hd : decode w with
    | error e => exact .inr (.inl ⟨rfl, ⟨e, rfl⟩, by simp [issue, hf, hd]⟩)
    | ok i => exact .inr (.inr ⟨rfl, i, rfl, by simp [issue, hf, hd]⟩)
  · exact .inl ⟨rfl, by simp [issue, hf]⟩

/-- One step with an access left performs it. -/
theorem step_cons {s : State} {a : Access} {l : List Access} (h : s.todo = a :: l) :
    step s = perform a (s.takeAccess l) := by
  simp [step, nextAccess, h]

/-- With nothing left to do the engine is idle. -/
theorem step_nil {s : State} (h : s.todo = []) : step s = .next s := by
  simp [step, nextAccess, h]

@[simp] theorem runSteps_zero (s : State) : runSteps 0 s = .next s := rfl

/-- A run goes on from where its first step leads. -/
theorem runSteps_succ {n : Nat} {s t : State} (h : step s = .next t) : runSteps (n + 1) s = runSteps n t := by
  unfold runSteps
  simp only [Host.Core.run, show Sys2Proof.core.step s = .next t from h]
  rfl

/-- The first step of a run whose next access is a write to `CMD`. -/
theorem runSteps_issue {n : Nat} {s t : State} {w : Word} {l : List Access} (hs : s.todo = .regWrite 0 w :: l)
    (h : issue w (s.takeAccess l) = .next t) : runSteps (n + 1) s = runSteps n t :=
  runSteps_succ ((step_cons hs).trans h)

end Sys2Proof.Machine
end

