-- ==== Sys2Proof/Laws/Blur.lean ====
section
/-!
SUPPORT. The summed-area table as an array against the recurrence of R114 over coordinates, and the pixels of
a box blur.
-/

namespace Sys2Proof.Machine

/-! ### Coordinates -/

theorem flat_lt {w h x y : Nat} (hx : x < w) (hy : y < h) : y * w + x < w * h := by
  calc y * w + x < y * w + w := by omega
    _ = (y + 1) * w := by ring
    _ ≤ h * w := Nat.mul_le_mul_right _ hy
    _ = w * h := Nat.mul_comm _ _

theorem flat_mod {w x y : Nat} (hx : x < w) : (y * w + x) % w = x := by
  rw [Nat.mul_comm, Nat.mul_add_mod, Nat.mod_eq_of_lt hx]

theorem flat_div {w x y : Nat} (hx : x < w) : (y * w + x) / w = y := by
  rw [Nat.mul_comm, Nat.mul_add_div (by omega), Nat.div_eq_of_lt hx, Nat.add_zero]

theorem flat_channel_lt {w h x y : Nat} (c : Chan) (hx : x < w) (hy : y < h) :
    3 * (y * w + x) + c.val < 3 * (w * h) := by
  have := flat_lt hx hy
  have := c.isLt
  omega

/-! ### The table -/

@[simp] theorem buildSat_size (input : Array Binary64) (w n : Nat) : (buildSat input w n).size = n := by
  induction n with
  | zero => rfl
  | succ n ih => simp [buildSat, ih]

/-- Entry `j` of a table is computed from the entries before it. -/
theorem buildSat_getElem? (input : Array Binary64) (w n j : Nat) (h : j < n) :
    (buildSat input w n)[j]? = some (satEntry input w (buildSat input w j) j) := by
  induction n with
  | zero => omega
  | succ n ih =>
    by_cases hj : j = n
    · subst hj
      rw [buildSat, Array.getElem?_push, if_pos (buildSat_size _ _ _).symm]
    · have hlt : j < n := by omega
      rw [← ih hlt]
      simp [buildSat, Array.getElem?_push, hj]

/-- An entry once built stays. -/
theorem buildSat_stable (input : Array Binary64) (w : Nat) {m n j : Nat} (hm : j < m) (hn : j < n) :
    (buildSat input w m)[j]? = (buildSat input w n)[j]? := by
  rw [buildSat_getElem? input w m j hm, buildSat_getElem? input w n j hn]

theorem channelPlane_getElem? (b : HBuf) (c : Chan) (k : Nat) (h : k < b.w * b.h) :
    (channelPlane b c)[k]? = some ((b.px[3 * k + c.val]?).getD fZero) := by
  simp [channelPlane, h]

/-- The table of channel `c` of `b` by coordinates. -/
def satFun (b : HBuf) (c : Chan) (x y : Nat) : Binary64 :=
  ((buildSat (channelPlane b c) b.w (b.w * b.h))[y * b.w + x]?).getD fZero

/-- The array the engine builds satisfies the recurrence of R114. -/
theorem satFun_isSat (b : HBuf) (c : Chan) : IsSat b c (satFun b c) := by
  intro x y hx hy
  have hk := flat_lt hx hy
  have hmod : (y * b.w + x) % b.w = x := flat_mod hx
  have hdiv : (y * b.w + x) / b.w = y := flat_div hx
  generalize hK : y * b.w + x = k at *
  unfold satFun
  rw [hK, buildSat_getElem? _ _ _ _ hk, Option.getD_some]
  simp only [satEntry, hmod, hdiv, channelPlane_getElem? b c k hk, Option.getD_some]
  have hleft : 1 ≤ x → (buildSat (channelPlane b c) b.w k)[k - 1]? =
      (buildSat (channelPlane b c) b.w (b.w * b.h))[y * b.w + (x - 1)]? := fun h1 => by
    rw [show y * b.w + (x - 1) = k - 1 by omega]
    exact buildSat_stable _ _ (by omega) (by omega)
  have hup : 1 ≤ y → (buildSat (channelPlane b c) b.w k)[k - b.w]? =
      (buildSat (channelPlane b c) b.w (b.w * b.h))[(y - 1) * b.w + x]? := fun h1 => by
    obtain ⟨z, rfl⟩ : ∃ z, y = z + 1 := ⟨y - 1, by omega⟩
    have : (z + 1) * b.w = z * b.w + b.w := by ring
    rw [Nat.add_sub_cancel, show z * b.w + x = k - b.w by omega]
    exact buildSat_stable _ _ (by omega) (by omega)
  have hdiag : 1 ≤ x → 1 ≤ y → (buildSat (channelPlane b c) b.w k)[k - b.w - 1]? =
      (buildSat (channelPlane b c) b.w (b.w * b.h))[(y - 1) * b.w + (x - 1)]? := fun h0 h1 => by
    obtain ⟨z, rfl⟩ : ∃ z, y = z + 1 := ⟨y - 1, by omega⟩
    have : (z + 1) * b.w = z * b.w + b.w := by ring
    rw [Nat.add_sub_cancel, show z * b.w + (x - 1) = k - b.w - 1 by omega]
    exact buildSat_stable _ _ (by omega) (by omega)
  have hat : (b.px[3 * k + c.val]?).getD fZero = b.at x y c := by rw [HBuf.at, hK]
  rw [hat]
  by_cases h0 : 1 ≤ x <;> by_cases h1 : 1 ≤ y <;>
    simp [h0, h1, hleft, hup, hdiag]

/-- The recurrence has one solution on the image. -/
theorem IsSat.unique {b : HBuf} {c : Chan} {S T : Nat → Nat → Binary64} (hS : IsSat b c S)
    (hT : IsSat b c T) : ∀ y x, x < b.w → y < b.h → S x y = T x y := by
  intro y
  induction y with
  | zero =>
    intro x
    induction x with
    | zero => intro hx hy; rw [hS 0 0 hx hy, hT 0 0 hx hy]; simp
    | succ x ihx =>
      intro hx hy
      rw [hS _ _ hx hy, hT _ _ hx hy]
      simp [ihx (by omega) hy]
  | succ y ihy =>
    intro x
    induction x with
    | zero =>
      intro hx hy
      rw [hS _ _ hx hy, hT _ _ hx hy]
      simp [ihy 0 hx (by omega)]
    | succ x ihx =>
      intro hx hy
      rw [hS _ _ hx hy, hT _ _ hx hy]
      simp [ihx (by omega) hy, ihy x (by omega) (by omega), ihy (x + 1) hx (by omega)]

/-! ### The window -/

/-- The corners of the window lie inside the image (R115). -/
theorem windowAt_bounds {x y r w h : Nat} (hx : x < w) (hy : y < h) :
    (windowAt x y r w h).x0 ≤ x ∧ x ≤ (windowAt x y r w h).x1 ∧ (windowAt x y r w h).x1 < w ∧
    (windowAt x y r w h).y0 ≤ y ∧ y ≤ (windowAt x y r w h).y1 ∧ (windowAt x y r w h).y1 < h := by
  simp only [windowAt]
  omega

/-- The engine's window sum is that of R117 over the table by coordinates. -/
theorem windowSum_eq (b : HBuf) (c : Chan) (v : Window) :
    windowSum (buildSat (channelPlane b c) b.w (b.w * b.h)) b.w v = satWindowSum (satFun b c) v := by
  unfold windowSum satWindowSum satFun
  by_cases h0 : 1 ≤ v.x0 <;> by_cases h1 : 1 ≤ v.y0 <;> simp [h0, h1]

/-! ### The blurred buffer -/

@[simp] theorem boxBlur_w (b : HBuf) (r : Nat) : (boxBlur b r).w = b.w := by
  unfold boxBlur; split <;> rfl

@[simp] theorem boxBlur_h (b : HBuf) (r : Nat) : (boxBlur b r).h = b.h := by
  unfold boxBlur; split <;> rfl

@[simp] theorem boxBlur_zero (b : HBuf) : boxBlur b 0 = b := rfl

theorem flatMap_three_getElem? (f : Nat → List Binary64) (n k j : Nat) (hf : ∀ i, (f i).length = 3)
    (hk : k < n) (hj : j < 3) : ((List.range n).flatMap f)[3 * k + j]? = (f k)[j]? := by
  induction n generalizing k f with
  | zero => omega
  | succ n ih =>
    rw [List.range_succ_eq_map, List.flatMap_cons]
    cases k with
    | zero => rw [Nat.mul_zero, Nat.zero_add, List.getElem?_append_left (by rw [hf]; exact hj)]
    | succ k =>
      rw [List.getElem?_append_right (by rw [hf]; omega), hf, List.flatMap_map,
        show 3 * (k + 1) + j - 3 = 3 * k + j by omega]
      exact ih (fun i => f (i + 1)) k (fun i => hf _) (by omega)

theorem flatMap_three_length (f : Nat → List Binary64) (n : Nat) (hf : ∀ i, (f i).length = 3) :
    ((List.range n).flatMap f).length = 3 * n := by
  simp [List.length_flatMap, hf, Nat.mul_comm]

theorem boxBlur_length (b : HBuf) (r : Nat) (hr : r ≠ 0) : (boxBlur b r).px.length = 3 * (b.w * b.h) := by
  simp only [boxBlur, hr, if_false]
  exact flatMap_three_length _ _ (fun _ => rfl)

theorem blurPlane_getElem? (b : HBuf) (r : Nat) (c : Chan) (k : Nat) (h : k < b.w * b.h) :
    (blurPlane b r c)[k]? =
      some (meanAt (buildSat (channelPlane b c) b.w (b.w * b.h)) b.w b.h r k) := by
  simp [blurPlane, h]

/-- The value of the blur at a pixel (R110, R118): the window sum over the table, divided by the count. -/
theorem boxBlur_at (b : HBuf) (r x y : Nat) (c : Chan) (hr : r ≠ 0) (hx : x < b.w) (hy : y < b.h) :
    (boxBlur b r).at x y c =
      fdiv (satWindowSum (satFun b c) (windowAt x y r b.w b.h))
        (fOfCount (windowAt x y r b.w b.h).count) := by
  have hk := flat_lt hx hy
  have hc := c.isLt
  rw [HBuf.at, boxBlur_w]
  simp only [boxBlur, hr, if_false]
  rw [flatMap_three_getElem? _ _ _ _ (fun _ => rfl) hk hc]
  have hp : ∀ c : Chan, ((blurPlane b r c)[y * b.w + x]?).getD fZero =
      fdiv (satWindowSum (satFun b c) (windowAt x y r b.w b.h))
        (fOfCount (windowAt x y r b.w b.h).count) := fun c => by
    rw [blurPlane_getElem? b r c _ hk, Option.getD_some, meanAt, flat_mod hx, flat_div hx, windowSum_eq]
  rw [hp 0, hp 1, hp 2]
  obtain ⟨cv, hcv⟩ := c
  match cv, hcv with
  | 0, _ => rfl
  | 1, _ => rfl
  | 2, _ => rfl

/-- The blur of a valid buffer is valid (R22, R111). -/
theorem boxBlur_valid {cap : Nat} {b : HBuf} (r : Nat) (hb : b.valid cap) (hw : b.w ≠ 0) :
    (boxBlur b r).valid cap := by
  by_cases hr : r = 0
  · subst hr; exact hb
  · rcases hb with ⟨h, -, -⟩ | ⟨h1, h2, h3, -⟩
    · exact absurd h hw
    · exact .inr ⟨by simpa using h1, by simpa using h2, by simpa using h3, by
        rw [boxBlur_length b r hr, boxBlur_w, boxBlur_h]⟩

/-- Two buffers of one shape are equal when all their pixels are. -/
theorem HBuf.ext_at {a b : HBuf} (hw : a.w = b.w) (hh : a.h = b.h)
    (ha : a.px.length = 3 * (a.w * a.h)) (hb : b.px.length = 3 * (b.w * b.h))
    (h : ∀ x y (c : Chan), x < a.w → y < a.h → a.at x y c = b.at x y c) : a = b := by
  obtain ⟨w, hgt, px⟩ := a
  obtain ⟨w', h', px'⟩ := b
  simp only at hw hh ha hb
  subst hw hh
  congr 1
  apply List.ext_getElem?
  intro o
  by_cases ho : o < 3 * (w * hgt)
  · have hk : o / 3 < w * hgt := by omega
    have hw0 : 0 < w := Nat.pos_of_ne_zero fun e => by subst e; omega
    have h1 := h (o / 3 % w) (o / 3 / w) ⟨o % 3, by omega⟩ (Nat.mod_lt _ hw0)
      (Nat.div_lt_of_lt_mul hk)
    simp only [HBuf.at] at h1
    have hflat : 3 * (o / 3 / w * w + o / 3 % w) + o % 3 = o := by
      rw [Nat.mul_comm (o / 3 / w), Nat.div_add_mod]
      omega
    rw [hflat] at h1
    rw [List.getElem?_eq_getElem (by omega), List.getElem?_eq_getElem (by omega)] at h1 ⊢
    simpa using h1
  · rw [List.getElem?_eq_none (by omega), List.getElem?_eq_none (by omega)]

end Sys2Proof.Machine
end

