-- ==== Sys2Proof/Laws/Decode.lean ====
section
/-!
SUPPORT. The fields of a command word, and what the mask tests of R79 say about them.
-/

namespace Sys2Proof

/-- A command word bit by bit (R71). -/
theorem getLsbD_commandWord (op d a b : BitVec 4) (imm : BitVec 16) (i : Nat) :
    (commandWord op d a b imm).getLsbD i =
      if i < 16 then imm.getLsbD i
      else if i < 20 then b.getLsbD (i - 16)
      else if i < 24 then a.getLsbD (i - 20)
      else if i < 28 then d.getLsbD (i - 24)
      else op.getLsbD (i - 28) := by
  show BitVec.getLsbD (w := 4 + 4 + 4 + 4 + 16) (op ++ d ++ a ++ b ++ imm) i = _
  simp only [BitVec.getLsbD_append]
  by_cases h1 : i < 16
  · simp [h1]
  by_cases h2 : i < 20
  · have : i - 16 < 4 := by omega
    simp [h1, h2, this]
  by_cases h3 : i < 24
  · have h4 : ¬i - 16 < 4 := by omega
    have h5 : i - 16 - 4 < 4 := by omega
    simp only [h1, h2, h3, h4, h5, if_true, if_false]
    congr 1
  by_cases h6 : i < 28
  · have h4 : ¬i - 16 < 4 := by omega
    have h5 : ¬i - 16 - 4 < 4 := by omega
    have h7 : i - 16 - 4 - 4 < 4 := by omega
    simp only [h1, h2, h3, h4, h5, h6, h7, if_true, if_false]
    congr 1
  · have h4 : ¬i - 16 < 4 := by omega
    have h5 : ¬i - 16 - 4 < 4 := by omega
    have h7 : ¬i - 16 - 4 - 4 < 4 := by omega
    simp only [h1, h2, h3, h4, h5, h6, h7, if_false]
    congr 1

section
variable (op d a b : BitVec 4) (imm : BitVec 16)

@[simp] theorem opField_commandWord : opField (commandWord op d a b imm) = op := by
  apply BitVec.eq_of_getLsbD_eq
  intro i hi
  have h1 : ¬28 + i < 16 := by omega
  have h2 : ¬28 + i < 20 := by omega
  have h3 : ¬28 + i < 24 := by omega
  have h4 : ¬28 + i < 28 := by omega
  simp only [opField, BitVec.getLsbD_extractLsb', getLsbD_commandWord, h1, h2, h3, h4, if_false, hi,
    decide_true, Bool.true_and, Nat.add_sub_cancel_left]

@[simp] theorem dField_commandWord : dField (commandWord op d a b imm) = d := by
  apply BitVec.eq_of_getLsbD_eq
  intro i hi
  have h1 : ¬24 + i < 16 := by omega
  have h2 : ¬24 + i < 20 := by omega
  have h3 : ¬24 + i < 24 := by omega
  have h4 : 24 + i < 28 := by omega
  simp only [dField, BitVec.getLsbD_extractLsb', getLsbD_commandWord, h1, h2, h3, h4, if_false, if_true, hi,
    decide_true, Bool.true_and, Nat.add_sub_cancel_left]

@[simp] theorem aField_commandWord : aField (commandWord op d a b imm) = a := by
  apply BitVec.eq_of_getLsbD_eq
  intro i hi
  have h1 : ¬20 + i < 16 := by omega
  have h2 : ¬20 + i < 20 := by omega
  have h3 : 20 + i < 24 := by omega
  simp only [aField, BitVec.getLsbD_extractLsb', getLsbD_commandWord, h1, h2, h3, if_false, if_true, hi,
    decide_true, Bool.true_and, Nat.add_sub_cancel_left]

@[simp] theorem bField_commandWord : bField (commandWord op d a b imm) = b := by
  apply BitVec.eq_of_getLsbD_eq
  intro i hi
  have h1 : ¬16 + i < 16 := by omega
  have h2 : 16 + i < 20 := by omega
  simp only [bField, BitVec.getLsbD_extractLsb', getLsbD_commandWord, h1, h2, if_false, if_true, hi,
    decide_true, Bool.true_and, Nat.add_sub_cancel_left]

@[simp] theorem immField_commandWord : immField (commandWord op d a b imm) = imm := by
  apply BitVec.eq_of_getLsbD_eq
  intro i hi
  simp only [immField, BitVec.getLsbD_extractLsb', getLsbD_commandWord, Nat.zero_add, hi, if_true,
    decide_true, Bool.true_and]
end

/-- A word is its five fields (R71). -/
theorem commandWord_fields (w : Word) :
    commandWord (opField w) (dField w) (aField w) (bField w) (immField w) = w := by
  apply BitVec.eq_of_getLsbD_eq
  intro i hi
  rw [getLsbD_commandWord]
  simp only [opField, dField, aField, bField, immField, BitVec.getLsbD_extractLsb']
  split
  next h => simp [h]
  next h =>
    split
    next h2 => simp [show i - 16 < 4 by omega, show 16 + (i - 16) = i by omega]
    next h2 =>
      split
      next h3 => simp [show i - 20 < 4 by omega, show 20 + (i - 20) = i by omega]
      next h3 =>
        split
        next h4 => simp [show i - 24 < 4 by omega, show 24 + (i - 24) = i by omega]
        next h4 => simp [show i - 28 < 4 by omega, show 28 + (i - 28) = i by omega]

/-- The fields of a command word are independent of each other. -/
theorem commandWord_inj {op d a b op' d' a' b' : BitVec 4} {imm imm' : BitVec 16} :
    commandWord op d a b imm = commandWord op' d' a' b' imm' ↔
      op = op' ∧ d = d' ∧ a = a' ∧ b = b' ∧ imm = imm' := by
  constructor
  · intro h
    refine ⟨?_, ?_, ?_, ?_, ?_⟩
    · simpa using congrArg opField h
    · simpa using congrArg dField h
    · simpa using congrArg aField h
    · simpa using congrArg bField h
    · simpa using congrArg immField h
  · rintro ⟨rfl, rfl, rfl, rfl, rfl⟩; rfl

/-- A mask acts field by field. -/
theorem commandWord_and (op d a b op' d' a' b' : BitVec 4) (imm imm' : BitVec 16) :
    commandWord op d a b imm &&& commandWord op' d' a' b' imm' =
      commandWord (op &&& op') (d &&& d') (a &&& a') (b &&& b') (imm &&& imm') := by
  apply BitVec.eq_of_getLsbD_eq
  intro i hi
  simp only [BitVec.getLsbD_and, getLsbD_commandWord]
  split
  · rfl
  · split
    · rfl
    · split
      · rfl
      · split <;> rfl

/-- What a mask test of R79 says about the fields. -/
theorem mask_test (w : Word) (mop md ma mb vop : BitVec 4) (mi : BitVec 16) (mask value : Word)
    (hm : mask = commandWord mop md ma mb mi) (hv : value = commandWord vop 0 0 0 0) :
    w &&& mask = value ↔
      opField w &&& mop = vop ∧ dField w &&& md = 0 ∧ aField w &&& ma = 0 ∧ bField w &&& mb = 0 ∧
        immField w &&& mi = 0 := by
  rw [hm, hv]
  conv_lhs => rw [← commandWord_fields w, commandWord_and]
  exact commandWord_inj

theorem and_all4 (x : BitVec 4) : x &&& 0xF#4 = x := by revert x; decide

theorem and_8_eq_zero_iff (x : BitVec 4) : x &&& 0x8#4 = 0#4 ↔ x.toNat < 8 := by revert x; decide

theorem and_C_eq_zero_iff (x : BitVec 4) : x &&& 0xC#4 = 0#4 ↔ x.toNat < 4 := by revert x; decide

theorem and_all16 (x : BitVec 16) : x &&& 0xFFFF#16 = x := BitVec.and_allOnes

/-- The test of CREATE (R79). -/
theorem create_test (w : Word) : w &&& 0xF8FFFFFF#32 = 0x10000000#32 ↔
    opField w = 1 ∧ (dField w).toNat < 8 ∧ aField w = 0 ∧ bField w = 0 ∧ immField w = 0 := by
  rw [mask_test w 0xF 0x8 0xF 0xF 1 0xFFFF _ _ (by decide) (by decide)]
  simp only [and_all4, and_8_eq_zero_iff, and_all16, BitVec.ofNat_eq_ofNat]

/-- The test of FROMPIX (R79). -/
theorem frompix_test (w : Word) : w &&& 0xF8CFFFFF#32 = 0x20000000#32 ↔
    opField w = 2 ∧ (dField w).toNat < 8 ∧ (aField w).toNat < 4 ∧ bField w = 0 ∧ immField w = 0 := by
  rw [mask_test w 0xF 0x8 0xC 0xF 2 0xFFFF _ _ (by decide) (by decide)]
  simp only [and_all4, and_8_eq_zero_iff, and_C_eq_zero_iff, and_all16, BitVec.ofNat_eq_ofNat]

/-- The test of TOPIX (R79). -/
theorem topix_test (w : Word) : w &&& 0xFC8FFFFF#32 = 0x30000000#32 ↔
    opField w = 3 ∧ (dField w).toNat < 4 ∧ (aField w).toNat < 8 ∧ bField w = 0 ∧ immField w = 0 := by
  rw [mask_test w 0xF 0xC 0x8 0xF 3 0xFFFF _ _ (by decide) (by decide)]
  simp only [and_all4, and_8_eq_zero_iff, and_C_eq_zero_iff, and_all16, BitVec.ofNat_eq_ofNat]

/-- The test of BLUR (R79). -/
theorem blur_test (w : Word) : w &&& 0xF88F0000#32 = 0x40000000#32 ↔
    opField w = 4 ∧ (dField w).toNat < 8 ∧ (aField w).toNat < 8 ∧ bField w = 0 := by
  rw [mask_test w 0xF 0x8 0x8 0xF 4 0 _ _ (by decide) (by decide)]
  simp only [and_all4, and_8_eq_zero_iff, BitVec.ofNat_eq_ofNat, BitVec.and_zero, and_true]

/-- The test of DIFF (R79). -/
theorem diff_test (w : Word) : w &&& 0xFC88FFFF#32 = 0x50000000#32 ↔
    opField w = 5 ∧ (dField w).toNat < 4 ∧ (aField w).toNat < 8 ∧ (bField w).toNat < 8 ∧
      immField w = 0 := by
  rw [mask_test w 0xF 0xC 0x8 0x8 5 0xFFFF _ _ (by decide) (by decide)]
  simp only [and_all4, and_8_eq_zero_iff, and_C_eq_zero_iff, and_all16, BitVec.ofNat_eq_ofNat]

/-! ### Slot numbers -/

/-- A slot number read from the low three bits of a field. -/
theorem hslotAt_val (w : Word) (lo : Nat) :
    (hslotAt w lo).val = (w.extractLsb' lo 4).toNat % 8 := by
  simp only [hslotAt, BitVec.extractLsb'_toNat, Nat.shiftRight_eq_div_pow]
  omega

/-- A slot number read from the low two bits of a field. -/
theorem pslotAt_val (w : Word) (lo : Nat) :
    (pslotAt w lo).val = (w.extractLsb' lo 4).toNat % 4 := by
  simp only [pslotAt, BitVec.extractLsb'_toNat, Nat.shiftRight_eq_div_pow]
  omega

theorem slotBits_toNat (n : Nat) (h : n < 16) : (slotBits n).toNat = n := by
  simp [slotBits, Nat.mod_eq_of_lt h]

end Sys2Proof
end

