-- ==== Sys2Proof/Laws/Float.lean ====
section
/-!
SUPPORT. The fields of a packed pattern, the form of a magnitude, and the exactness of rounding on values
that are representable. A magnitude is `q * 2^sh` with `q < 2^53`, and `2^52 ≤ q` unless `sh = 0`; its lower
63 bits are then `sh * 2^52 + q`.
-/

namespace Sys2Proof.Machine

/-! ### Fields of a packed pattern -/

theorem fPack_toNat (s : Bool) (m : Nat) (hm : m < 2 ^ 63) :
    (fPack s m).toNat = (if s then 2 ^ 63 else 0) + m := by
  unfold fPack
  rw [BitVec.toNat_append, BitVec.toNat_ofNat, Nat.mod_eq_of_lt hm, Nat.shiftLeft_eq]
  rw [← Nat.shiftLeft_eq, ← Nat.shiftLeft_add_eq_or_of_lt hm, Nat.shiftLeft_eq]
  cases s <;> rfl

theorem fSign_eq (x : Binary64) : fSign x = decide (2 ^ 63 ≤ x.toNat) := by
  have := x.isLt
  unfold fSign
  rw [BitVec.getLsbD, Nat.testBit_eq_decide_div_mod_eq]
  exact decide_eq_decide.mpr (by omega)

theorem fExp_eq (x : Binary64) : fExp x = x.toNat / 2 ^ 52 % 2 ^ 11 := by
  simp [fExp, BitVec.extractLsb'_toNat, Nat.shiftRight_eq_div_pow]

theorem fFrac_eq (x : Binary64) : fFrac x = x.toNat % 2 ^ 52 := by
  simp [fFrac, BitVec.extractLsb'_toNat]

@[simp] theorem fSign_fPack (s : Bool) (m : Nat) (hm : m < 2 ^ 63) : fSign (fPack s m) = s := by
  rw [fSign_eq, fPack_toNat s m hm]
  cases s
  · simp; omega
  · simp

theorem fExp_fPack (s : Bool) (m : Nat) (hm : m < 2 ^ 63) : fExp (fPack s m) = m / 2 ^ 52 := by
  rw [fExp_eq, fPack_toNat s m hm]
  cases s <;> simp <;> omega

theorem fFrac_fPack (s : Bool) (m : Nat) (hm : m < 2 ^ 63) : fFrac (fPack s m) = m % 2 ^ 52 := by
  rw [fFrac_eq, fPack_toNat s m hm]
  cases s <;> simp <;> omega

/-- The lower 63 bits of a pattern. -/
def lowBits (x : Binary64) : Nat := x.toNat % 2 ^ 63

theorem lowBits_lt (x : Binary64) : lowBits x < 2 ^ 63 := Nat.mod_lt _ (by decide)

/-- A pattern is its sign and its lower 63 bits. -/
theorem fPack_eta (x : Binary64) : fPack (fSign x) (lowBits x) = x := by
  apply BitVec.eq_of_toNat_eq
  rw [fPack_toNat _ _ (lowBits_lt x), fSign_eq, lowBits]
  have := x.isLt
  by_cases h : 2 ^ 63 ≤ x.toNat
  · simp only [h, decide_true, if_true]; omega
  · simp only [h, decide_false]; simp; omega

theorem lowBits_fPack (s : Bool) (m : Nat) (hm : m < 2 ^ 63) : lowBits (fPack s m) = m := by
  rw [lowBits, fPack_toNat s m hm]
  cases s <;> simp <;> omega

/-- The magnitude that 63 lower bits stand for. -/
def magOf (m : Nat) : Nat :=
  if m / 2 ^ 52 = 0 then m % 2 ^ 52 else (2 ^ 52 + m % 2 ^ 52) * 2 ^ (m / 2 ^ 52 - 1)

theorem fMag_fPack (s : Bool) (m : Nat) (hm : m < 2 ^ 63) : fMag (fPack s m) = magOf m := by
  rw [fMag, fExp_fPack s m hm, fFrac_fPack s m hm, magOf]

theorem fMag_eq (x : Binary64) : fMag x = magOf (lowBits x) := by
  rw [← fMag_fPack (fSign x) _ (lowBits_lt x), fPack_eta]

theorem fVal_fPack (s : Bool) (m : Nat) (hm : m < 2 ^ 63) :
    fVal (fPack s m) = if s then -(magOf m : Int) else (magOf m : Int) := by
  rw [fVal, fSign_fPack s m hm, fMag_fPack s m hm]

theorem natAbs_fVal (x : Binary64) : (fVal x).natAbs = fMag x := by
  unfold fVal; split <;> simp

/-- Finite means that the lower 63 bits stay below those of an infinity. -/
theorem fIsFinite_iff (x : Binary64) : fIsFinite x = true ↔ lowBits x < infBits := by
  have h := lowBits_lt x
  rw [fIsFinite, ← fPack_eta x, fExp_fPack _ _ h, lowBits_fPack _ _ h]
  simp only [bne_iff_ne, ne_eq, infBits]
  omega

theorem fIsFinite_fPack (s : Bool) (m : Nat) (hm : m < infBits) : fIsFinite (fPack s m) = true := by
  have : m < 2 ^ 63 := Nat.lt_trans hm (by decide)
  rw [fIsFinite_iff, lowBits_fPack s m this]
  exact hm

theorem not_nan_of_finite {x : Binary64} (h : fIsFinite x = true) : fIsNaN x = false := by
  simp only [fIsFinite, bne_iff_ne, ne_eq] at h
  simp [fIsNaN, h]

theorem not_inf_of_finite {x : Binary64} (h : fIsFinite x = true) : fIsInf x = false := by
  simp only [fIsFinite, bne_iff_ne, ne_eq] at h
  simp [fIsInf, h]

/-! ### Rounding -/

theorem roundMag_le (n d : Nat) : roundMag n d ≤ infBits := Nat.min_le_right _ _

theorem roundMag_lt (n d : Nat) : roundMag n d < 2 ^ 63 :=
  Nat.lt_of_le_of_lt (roundMag_le n d) (by decide)

/-- The normal form of a magnitude: `q` has at most 53 bits, and exactly 53 unless `sh = 0`. -/
def IsForm (q sh : Nat) : Prop := q < 2 ^ 53 ∧ (sh = 0 ∨ 2 ^ 52 ≤ q)

theorem magOf_form {q sh : Nat} (h : IsForm q sh) : magOf (sh * 2 ^ 52 + q) = q * 2 ^ sh := by
  obtain ⟨hq, h⟩ := h
  unfold magOf
  by_cases h52 : 2 ^ 52 ≤ q
  · have h1 : (sh * 2 ^ 52 + q) / 2 ^ 52 = sh + 1 := by omega
    have h2 : (sh * 2 ^ 52 + q) % 2 ^ 52 = q - 2 ^ 52 := by omega
    rw [h1, h2, if_neg (Nat.succ_ne_zero sh), Nat.add_sub_cancel, Nat.add_sub_cancel' h52]
  · have hs : sh = 0 := by omega
    subst hs
    have h1 : (0 * 2 ^ 52 + q) / 2 ^ 52 = 0 := by omega
    have h2 : (0 * 2 ^ 52 + q) % 2 ^ 52 = q := by omega
    rw [h1, h2, if_pos rfl, Nat.pow_zero, Nat.mul_one]

/-- Every 63 lower bits are those of a normal form. -/
theorem form_of_bits (m : Nat) : ∃ q sh, IsForm q sh ∧ m = sh * 2 ^ 52 + q := by
  by_cases h : m < 2 ^ 52
  · exact ⟨m, 0, ⟨by omega, .inl rfl⟩, by omega⟩
  · exact ⟨2 ^ 52 + m % 2 ^ 52, m / 2 ^ 52 - 1, ⟨by omega, .inr (by omega)⟩, by omega⟩

theorem log2_form {q sh : Nat} (h : IsForm q sh) : Nat.log2 (q * 2 ^ sh) - 52 = sh := by
  obtain ⟨hq, h⟩ := h
  by_cases h52 : 2 ^ 52 ≤ q
  · have : Nat.log2 (q * 2 ^ sh) = 52 + sh := by
      rw [Nat.log2_eq_iff (by positivity)]
      refine ⟨?_, ?_⟩
      · rw [Nat.pow_add]; exact Nat.mul_le_mul_right _ h52
      · rw [show 52 + sh + 1 = 53 + sh by omega, Nat.pow_add]
        exact Nat.mul_lt_mul_of_pos_right hq (by positivity)
    omega
  · have hs : sh = 0 := by omega
    subst hs
    rw [Nat.pow_zero, Nat.mul_one]
    by_cases hq0 : q = 0
    · subst hq0; rfl
    · have : Nat.log2 q < 53 := (Nat.log2_lt hq0).mpr hq
      omega

/-- Rounding a representable magnitude is exact. -/
theorem roundMag_form {q sh d : Nat} (h : IsForm q sh) (hd : 0 < d) :
    roundMag (q * 2 ^ sh * d) d = min (sh * 2 ^ 52 + q) infBits := by
  have hp : 0 < d * 2 ^ sh := by positivity
  have h1 : q * 2 ^ sh * d / d = q * 2 ^ sh := Nat.mul_div_cancel _ hd
  have h2 : q * 2 ^ sh * d = q * (d * 2 ^ sh) := by ring
  unfold roundMag
  simp only [h1, log2_form h]
  rw [h2, Nat.mul_div_cancel _ hp, Nat.mul_mod_left]
  have h3 : ¬(d * 2 ^ sh < 2 * 0 ∨ (2 * 0 = d * 2 ^ sh ∧ q % 2 = 1)) := by omega
  rw [if_neg h3, Nat.add_zero, Nat.mul_comm (2 ^ 52)]

/-- Rounding the magnitude of 63 lower bits gives them back. -/
theorem roundMag_magOf (m d : Nat) (hm : m ≤ infBits) (hd : 0 < d) : roundMag (magOf m * d) d = m := by
  obtain ⟨q, sh, hf, rfl⟩ := form_of_bits m
  rw [magOf_form hf, roundMag_form hf hd, Nat.min_eq_left hm]

/-- The unit as a power of 2 whose exponent stays a variable. -/
theorem fUnit_pow : ∃ u, u = 1074 ∧ fUnit = 2 ^ u := ⟨1074, rfl, by unfold fUnit; rfl⟩

/-- An integer of magnitude at most `2^53` has a normal form (R13 (a)). -/
theorem form_of_int (n : Nat) (h0 : n ≠ 0) (hn : n ≤ 2 ^ 53) :
    ∃ q sh, IsForm q sh ∧ n * fUnit = q * 2 ^ sh ∧ sh * 2 ^ 52 + q < infBits := by
  have hlog : Nat.log2 n ≤ 53 := by
    have := (Nat.log2_lt (k := 54) h0).mpr (by omega)
    omega
  have hlo := Nat.log2_self_le h0
  have hhi := Nat.lt_log2_self (n := n)
  obtain ⟨u, hu, hU⟩ := fUnit_pow
  by_cases h53 : Nat.log2 n = 53
  · have hn' : n = 2 ^ 53 := by
      rw [h53] at hlo; omega
    refine ⟨2 ^ 52, u + 1, ⟨by decide, .inr (Nat.le_refl _)⟩, ?_, by simp only [infBits]; omega⟩
    rw [hn', hU, ← Nat.pow_add, ← Nat.pow_add]
    congr 1
    omega
  · generalize hL : Nat.log2 n = L at *
    have hL52 : L ≤ 52 := by omega
    refine ⟨n * 2 ^ (52 - L), u + L - 52, ⟨?_, .inr ?_⟩, ?_, ?_⟩
    · calc n * 2 ^ (52 - L) < 2 ^ (L + 1) * 2 ^ (52 - L) :=
            Nat.mul_lt_mul_of_pos_right hhi (by positivity)
        _ = 2 ^ 53 := by rw [← Nat.pow_add]; congr 1; omega
    · calc 2 ^ 52 = 2 ^ L * 2 ^ (52 - L) := by rw [← Nat.pow_add]; congr 1; omega
        _ ≤ n * 2 ^ (52 - L) := Nat.mul_le_mul_right _ hlo
    · rw [hU, Nat.mul_assoc, ← Nat.pow_add]; congr 2; omega
    · have : n * 2 ^ (52 - L) < 2 ^ 53 := by
        calc n * 2 ^ (52 - L) < 2 ^ (L + 1) * 2 ^ (52 - L) :=
              Nat.mul_lt_mul_of_pos_right hhi (by positivity)
          _ = 2 ^ 53 := by rw [← Nat.pow_add]; congr 1; omega
      simp only [infBits]
      omega

/-- The lower bits of an integer of magnitude at most `2^53` stand for exactly that integer. -/
theorem magOf_roundMag_int (n : Nat) (hn : n ≤ 2 ^ 53) :
    magOf (roundMag (fUnit * n) 1) = n * fUnit ∧ roundMag (fUnit * n) 1 < infBits := by
  rw [Nat.mul_comm fUnit]
  by_cases h0 : n = 0
  · subst h0
    rw [Nat.zero_mul]
    exact ⟨by decide, by decide⟩
  · obtain ⟨q, sh, hf, he, hb⟩ := form_of_int n h0 hn
    have hr : roundMag (n * fUnit) 1 = sh * 2 ^ 52 + q := by
      have := roundMag_form hf (d := 1) Nat.one_pos
      rw [Nat.mul_one] at this
      rw [he, this, Nat.min_eq_left (Nat.le_of_lt hb)]
    rw [hr, magOf_form hf, he]
    exact ⟨rfl, hb⟩

/-! ### Integers (R11, R13) -/

theorem fOfInt_zero : fOfInt 0 = fPack false 0 := by
  rw [fOfInt, Int.natAbs_zero, Nat.mul_zero]
  decide

theorem fIsFinite_fOfInt (n : Int) (hn : n.natAbs ≤ 2 ^ 53) : fIsFinite (fOfInt n) = true :=
  fIsFinite_fPack _ _ (magOf_roundMag_int _ hn).2

theorem fSign_fOfInt (n : Int) : fSign (fOfInt n) = decide (n < 0) :=
  fSign_fPack _ _ (roundMag_lt _ _)

theorem fMag_fOfInt (n : Int) (hn : n.natAbs ≤ 2 ^ 53) : fMag (fOfInt n) = n.natAbs * fUnit := by
  rw [fOfInt, fMag_fPack _ _ (roundMag_lt _ _), (magOf_roundMag_int _ hn).1]

/-- An integer of magnitude at most `2^53` is represented exactly. -/
theorem fVal_fOfInt (n : Int) (hn : n.natAbs ≤ 2 ^ 53) : fVal (fOfInt n) = n * fUnit := by
  rw [fVal, fSign_fOfInt, fMag_fOfInt n hn]
  by_cases h : n < 0
  · have h' : ((n.natAbs : Nat) : Int) = -n := by omega
    simp only [h, decide_true, if_true, Int.natCast_mul, h']
    ring
  · have h' : ((n.natAbs : Nat) : Int) = n := by omega
    simp only [h, decide_false, Bool.false_eq_true, if_false, Int.natCast_mul, h']

theorem fUnit_pos : 0 < fUnit := by unfold fUnit; positivity

/-- A finite value is determined by its exact value and, for a zero, its sign. -/
theorem eq_of_fVal_eq {x y : Binary64} (hx : fIsFinite x = true) (hy : fIsFinite y = true)
    (hs : fSign x = fSign y) (hm : fMag x = fMag y) : x = y := by
  have hx' := (fIsFinite_iff x).mp hx
  have hy' := (fIsFinite_iff y).mp hy
  have h1 : lowBits x = lowBits y := by
    rw [← roundMag_magOf (lowBits x) 1 hx'.le Nat.one_pos, ← roundMag_magOf (lowBits y) 1 hy'.le Nat.one_pos,
      ← fMag_eq, ← fMag_eq, hm]
  rw [← fPack_eta x, ← fPack_eta y, hs, h1]

/-! ### Sums -/

/-- The sum of two finite values: the exact sum rounded once, with the sign rule for an exact zero. -/
theorem fSum_finite {a b : Binary64} (nan : Binary64) (ha : fIsFinite a = true) (hb : fIsFinite b = true) :
    fSum nan a b = if fVal a + fVal b = 0 then fPack (fSign a && fSign b) 0
      else fPack (decide (fVal a + fVal b < 0)) (roundMag (fVal a + fVal b).natAbs 1) := by
  simp [fSum, not_nan_of_finite ha, not_nan_of_finite hb, not_inf_of_finite ha, not_inf_of_finite hb]

theorem fNeg_toNat (x : Binary64) :
    (fNeg x).toNat = if 2 ^ 63 ≤ x.toNat then x.toNat - 2 ^ 63 else x.toNat + 2 ^ 63 := by
  have hx := x.isLt
  have key : fNeg x = x + 0x8000000000000000#64 := by
    apply BitVec.eq_of_getLsbD_eq
    intro i hi
    rw [fNeg, BitVec.getLsbD_xor, BitVec.getLsbD_add hi]
    congr 1
    have hc : BitVec.carry i x 0x8000000000000000#64 false = false := by
      rw [BitVec.carry]
      simp only [Bool.toNat_false, Nat.add_zero, decide_eq_false_iff_not, not_le]
      have h0 : (0x8000000000000000#64).toNat % 2 ^ i = 0 := by
        have : (0x8000000000000000#64).toNat = 2 ^ i * 2 ^ (63 - i) := by
          rw [← Nat.pow_add, show i + (63 - i) = 63 by omega]; rfl
        rw [this, Nat.mul_mod_right]
      rw [h0, Nat.add_zero]
      exact Nat.mod_lt _ (by positivity)
    simp [hc]
  rw [key, BitVec.toNat_add]
  have : (0x8000000000000000#64).toNat = 2 ^ 63 := rfl
  rw [this]
  split <;> omega

theorem lowBits_fNeg (x : Binary64) : lowBits (fNeg x) = lowBits x := by
  have hx := x.isLt
  rw [lowBits, lowBits, fNeg_toNat]
  split <;> omega

theorem fSign_fNeg (x : Binary64) : fSign (fNeg x) = !fSign x := by
  have hx := x.isLt
  rw [fSign_eq, fSign_eq, fNeg_toNat]
  by_cases h : 2 ^ 63 ≤ x.toNat
  · simp only [h, if_true, decide_true]; simp; omega
  · simp only [h, if_false, decide_false]; simp

theorem fMag_fNeg (x : Binary64) : fMag (fNeg x) = fMag x := by rw [fMag_eq, fMag_eq, lowBits_fNeg]

theorem fVal_fNeg (x : Binary64) : fVal (fNeg x) = -fVal x := by
  rw [fVal, fVal, fSign_fNeg, fMag_fNeg]
  cases fSign x <;> simp

theorem fIsFinite_fNeg {x : Binary64} (h : fIsFinite x = true) : fIsFinite (fNeg x) = true := by
  rw [fIsFinite_iff] at *
  rwa [lowBits_fNeg]

/-- A sum of two integers is the value nearest to the integer sum, which is the sum itself where its magnitude
is at most `2^53` (R13 (b)). -/
theorem fSum_ints {a b : Binary64} (nan : Binary64) {m n : Int} (ha : fIsFinite a = true)
    (hb : fIsFinite b = true) (hm : fVal a = m * fUnit) (hn : fVal b = n * fUnit)
    (hz : m + n = 0 → (fSign a && fSign b) = false) :
    fSum nan a b = fOfInt (m + n) := by
  have hu : (0 : Int) < fUnit := by exact_mod_cast fUnit_pos
  have hsum : fVal a + fVal b = (m + n) * fUnit := by rw [hm, hn]; ring
  rw [fSum_finite nan ha hb, hsum]
  by_cases h0 : m + n = 0
  · rw [h0, Int.zero_mul, if_pos rfl, hz h0, fOfInt_zero]
  · rw [if_neg (Int.mul_ne_zero h0 (Int.ne_of_gt hu)), fOfInt, Int.natAbs_mul, Int.natAbs_natCast,
      Nat.mul_comm _ fUnit]
    congr 1
    exact decide_eq_decide.mpr ⟨fun h => by nlinarith, fun h => by nlinarith⟩

/-- `fadd` on integers of magnitude at most `2^53` (R13 (b)). -/
theorem fadd_fOfInt (m n : Int) (hm : m.natAbs ≤ 2 ^ 53) (hn : n.natAbs ≤ 2 ^ 53) :
    fadd (fOfInt m) (fOfInt n) = fOfInt (m + n) := by
  refine fSum_ints _ (fIsFinite_fOfInt m hm) (fIsFinite_fOfInt n hn) (fVal_fOfInt m hm) (fVal_fOfInt n hn)
    (fun h => ?_)
  rw [fSign_fOfInt, fSign_fOfInt]
  by_cases h1 : m < 0
  · have : ¬n < 0 := by omega
    simp [this]
  · simp [h1]

/-- `fsub` on integers of magnitude at most `2^53` (R13 (b)). -/
theorem fsub_fOfInt (m n : Int) (hm : m.natAbs ≤ 2 ^ 53) (hn : n.natAbs ≤ 2 ^ 53) :
    fsub (fOfInt m) (fOfInt n) = fOfInt (m - n) := by
  have hv : fVal (fNeg (fOfInt n)) = (-n) * fUnit := by rw [fVal_fNeg, fVal_fOfInt n hn]; ring
  have := fSum_ints (fNaN .sub (fOfInt m) (fOfInt n)) (fIsFinite_fOfInt m hm)
    (fIsFinite_fNeg (fIsFinite_fOfInt n hn)) (fVal_fOfInt m hm) hv
    (fun h => by
      rw [fSign_fNeg, fSign_fOfInt, fSign_fOfInt]
      by_cases h1 : m < 0
      · have : n < 0 := by omega
        simp [this]
      · simp [h1])
  rw [fsub, this, Int.sub_eq_add_neg]

/-- `fdiv(a*n, n) = a` on integers (R13 (d)). -/
theorem fdiv_fOfInt_mul (m : Int) (n : Nat) (hn : 1 ≤ n) (hn' : n ≤ 2 ^ 53)
    (hmn : (m * n).natAbs ≤ 2 ^ 53) : fdiv (fOfInt (m * n)) (fOfCount n) = fOfInt m := by
  have hcn : (n : Int).natAbs ≤ 2 ^ 53 := by simpa using hn'
  have f1 := fIsFinite_fOfInt (m * n) hmn
  have f2 : fIsFinite (fOfCount n) = true := fIsFinite_fOfInt n hcn
  have m2 : fMag (fOfCount n) = n * fUnit := by rw [fOfCount, fMag_fOfInt _ hcn, Int.natAbs_natCast]
  have hpos : 0 < n * fUnit := Nat.mul_pos (by omega) fUnit_pos
  have hm : m.natAbs ≤ 2 ^ 53 := by
    rw [Int.natAbs_mul, Int.natAbs_natCast] at hmn
    exact Nat.le_trans (Nat.le_mul_of_pos_right _ (by omega)) hmn
  unfold fdiv
  simp only [not_nan_of_finite f1, not_nan_of_finite f2, not_inf_of_finite f1, not_inf_of_finite f2,
    Bool.or_self, Bool.false_eq_true, if_false, m2, Nat.ne_of_gt hpos]
  rw [fMag_fOfInt _ hmn, fSign_fOfInt, fOfCount, fSign_fOfInt, fOfInt]
  have hr : fUnit * ((m * n).natAbs * fUnit) = m.natAbs * fUnit * (n * fUnit) := by
    rw [Int.natAbs_mul, Int.natAbs_natCast]; ring
  obtain ⟨hmag, hlt⟩ := magOf_roundMag_int m.natAbs hm
  rw [hr, ← hmag, roundMag_magOf _ _ hlt.le (by rw [Nat.mul_comm]; simpa [Nat.mul_comm] using hpos)]
  congr 1
  have : ¬((n : Int) < 0) := by omega
  simp only [this, decide_false]
  have hn0 : (0 : Int) < n := by omega
  rw [Bool.bne_false]
  exact decide_eq_decide.mpr ⟨fun h => by nlinarith, fun h => by nlinarith⟩

end Sys2Proof.Machine
end

