-- ==== Sys2Proof/Laws/PerInstr.lean ====
section
/-!
SUPPORT. The families of facts about every instruction as syntax.

`EncodeFields`: the word of a command carries the opcode of R72 and leaves every reserved field of R73 zero.
-/

namespace Sys2Proof.Laws

/-- The opcode of a command (R72). -/
def opcodeOf : Instr → BitVec 4
  | .create _ => 1
  | .frompix _ _ => 2
  | .topix _ _ => 3
  | .blur _ _ _ => 4
  | .diff _ _ _ => 5

/-- The reserved fields of a command are zero in a word (R73, R75). -/
def reservedZero (w : Word) : Instr → Prop
  | .create _ => aField w = 0 ∧ bField w = 0 ∧ immField w = 0
  | .frompix _ _ => bField w = 0 ∧ immField w = 0
  | .topix _ _ => bField w = 0 ∧ immField w = 0
  | .blur _ _ _ => bField w = 0
  | .diff _ _ _ => immField w = 0

end Sys2Proof.Laws

namespace Sys2Proof

/-- The encoder writes the opcode and zeros into every reserved field. -/
def Laws.EncodeFields.Statement (i : Instr) : Prop :=
  opField (encode i) = Laws.opcodeOf i ∧ Laws.reservedZero (encode i) i

theorem Laws.EncodeFields.create (d : HSlot) : Laws.EncodeFields.Statement (.create d) := by
  simp [Laws.EncodeFields.Statement, encode, Laws.opcodeOf, Laws.reservedZero]

theorem Laws.EncodeFields.frompix (d : HSlot) (a : PSlot) :
    Laws.EncodeFields.Statement (.frompix d a) := by
  simp [Laws.EncodeFields.Statement, encode, Laws.opcodeOf, Laws.reservedZero]

theorem Laws.EncodeFields.topix (d : PSlot) (a : HSlot) :
    Laws.EncodeFields.Statement (.topix d a) := by
  simp [Laws.EncodeFields.Statement, encode, Laws.opcodeOf, Laws.reservedZero]

theorem Laws.EncodeFields.blur (d a : HSlot) (r : BitVec 16) :
    Laws.EncodeFields.Statement (.blur d a r) := by
  simp [Laws.EncodeFields.Statement, encode, Laws.opcodeOf, Laws.reservedZero]

theorem Laws.EncodeFields.diff (d : PSlot) (a b : HSlot) :
    Laws.EncodeFields.Statement (.diff d a b) := by
  simp [Laws.EncodeFields.Statement, encode, Laws.opcodeOf, Laws.reservedZero]

end Sys2Proof
end

