-- ==== Sys2Proof/Laws/Rounding.lean ====
section
/-!
SUPPORT. Rounding a magnitude: what `roundMag` does in full, that nothing lies nearer than its result, and where
it overflows. Then the values of the constants of R12 and the comparisons with them, and the class of a NaN.
-/

namespace Sys2Proof.Machine

/-- A quotient rounded up to `2^53` carries into the exponent and still stands for its value. -/
theorem magOf_carry {q sh : Nat} (hq : q ≤ 2 ^ 53) (h : sh = 0 ∨ 2 ^ 52 ≤ q) :
    magOf (sh * 2 ^ 52 + q) = q * 2 ^ sh := by
  by_cases hc : q = 2 ^ 53
  · subst hc
    have : sh * 2 ^ 52 + 2 ^ 53 = (sh + 1) * 2 ^ 52 + 2 ^ 52 := by ring
    rw [this, magOf_form ⟨by decide, .inr (Nat.le_refl _)⟩, Nat.pow_succ]
    ring
  · exact magOf_form ⟨by omega, h⟩

/-- The lower bits of two magnitudes are in the order of the magnitudes. -/
theorem magOf_strictMono {m m' : Nat} (h : m < m') : magOf m < magOf m' := by
  obtain ⟨q, sh, hf, rfl⟩ := form_of_bits m
  obtain ⟨q', sh', hf', rfl⟩ := form_of_bits m'
  rw [magOf_form hf, magOf_form hf']
  obtain ⟨h1, h2⟩ := hf
  obtain ⟨h3, h4⟩ := hf'
  by_cases hs : sh = sh'
  · subst hs
    exact Nat.mul_lt_mul_of_pos_right (by omega) (by positivity)
  · have hlt : sh < sh' := by
      by_contra hge
      have : sh' + 1 ≤ sh := by omega
      have : 2 ^ 52 ≤ q := by omega
      have : sh * 2 ^ 52 ≥ (sh' + 1) * 2 ^ 52 := Nat.mul_le_mul_right _ ‹_›
      have e : (sh' + 1) * 2 ^ 52 = sh' * 2 ^ 52 + 2 ^ 52 := by ring
      omega
    obtain ⟨k, rfl⟩ : ∃ k, sh' = sh + 1 + k := ⟨sh' - (sh + 1), by omega⟩
    have h5 : 2 ^ 52 ≤ q' := by omega
    calc q * 2 ^ sh < 2 ^ 53 * 2 ^ sh := Nat.mul_lt_mul_of_pos_right h1 (by positivity)
      _ = 2 ^ 52 * 2 ^ (sh + 1) := by rw [← Nat.pow_add, ← Nat.pow_add]; congr 1; omega
      _ ≤ q' * 2 ^ (sh + 1) := Nat.mul_le_mul_right _ h5
      _ ≤ q' * 2 ^ (sh + 1 + k) := Nat.mul_le_mul_left _ (Nat.pow_le_pow_right (by decide) (by omega))

/-- The magnitude that stands for an infinity is `2^2098`. -/
theorem magOf_inf : magOf infBits = 2 ^ 2098 := by
  have : magOf (2046 * 2 ^ 52 + 2 ^ 52) = 2 ^ 52 * 2 ^ 2046 := magOf_form ⟨by decide, .inr (Nat.le_refl _)⟩
  rw [show infBits = 2046 * 2 ^ 52 + 2 ^ 52 by decide, this, ← Nat.pow_add]

/-- What rounding does, said once: a quotient of at most 53 bits at a scale `2^sh`, and the step up. -/
theorem roundMag_spec (n d : Nat) (hd : 0 < d) :
    ∃ sh q up r den, den = d * 2 ^ sh ∧ n = q * den + r ∧ r < den ∧
      q < 2 ^ 53 ∧ (sh = 0 ∨ 2 ^ 52 ≤ q) ∧
      up = (if den < 2 * r ∨ (2 * r = den ∧ q % 2 = 1) then 1 else 0) ∧
      roundMag n d = min (sh * 2 ^ 52 + (q + up)) infBits := by
  refine ⟨Nat.log2 (n / d) - 52, n / (d * 2 ^ (Nat.log2 (n / d) - 52)), _, n % (d * 2 ^ (Nat.log2 (n / d) - 52)),
    _, rfl, ?_, ?_, ?_, ?_, rfl, ?_⟩
  · rw [Nat.mul_comm, Nat.div_add_mod]
  · exact Nat.mod_lt _ (by positivity)
  · rw [← Nat.div_div_eq_div_mul, Nat.div_lt_iff_lt_mul (by positivity), ← Nat.pow_add]
    calc n / d < 2 ^ (Nat.log2 (n / d) + 1) := Nat.lt_log2_self
      _ ≤ _ := Nat.pow_le_pow_right (by decide) (by omega)
  · by_cases h : Nat.log2 (n / d) ≤ 52
    · exact .inl (by omega)
    · refine .inr ?_
      have h0 : n / d ≠ 0 := by
        intro h0; rw [h0] at h; exact h (by decide)
      rw [← Nat.div_div_eq_div_mul, Nat.le_div_iff_mul_le (by positivity), ← Nat.pow_add]
      rw [show 52 + (Nat.log2 (n / d) - 52) = Nat.log2 (n / d) by omega]
      exact Nat.log2_self_le h0
  · rw [Nat.mul_comm _ (2 ^ 52), ← Nat.add_assoc]; rfl

/-- The distance of two naturals. -/
def dist (a b : Nat) : Nat := (a - b) + (b - a)

/-- A rounded magnitude below the infinity is nearest among all magnitudes, and even where another is as near. -/
theorem roundMag_nearest (n d : Nat) (hd : 0 < d) (hlt : roundMag n d < infBits) (m : Nat) :
    dist (magOf (roundMag n d) * d) n ≤ dist (magOf m * d) n ∧
    (magOf m ≠ magOf (roundMag n d) → dist (magOf (roundMag n d) * d) n = dist (magOf m * d) n →
      roundMag n d % 2 = 0) := by
  obtain ⟨sh, q, up, r, den, hden, hn, hr, hq, hs, hup, hround⟩ := roundMag_spec n d hd
  have hval : roundMag n d = sh * 2 ^ 52 + (q + up) := by
    rw [hround] at hlt ⊢; omega
  clear hround hlt
  generalize roundMag n d = R at *
  have hup1 : up ≤ 1 := by rw [hup]; split <;> omega
  have hM : magOf R * d = (q + up) * den := by
    rw [hval, magOf_carry (by omega) (by omega), hden]; ring
  have hpar : R % 2 = (q + up) % 2 := by rw [hval]; omega
  rw [hM, hpar]
  -- classify m
  have hcls : (∃ k, magOf m * d = k * den) ∨ (magOf m * d + den ≤ q * den ∧ 2 ^ 52 ≤ q) ∨
      (magOf m * d < q * den ∧ 2 ^ 52 ≤ q) := by
    obtain ⟨q', sh', hf, rfl⟩ := form_of_bits m
    rw [magOf_form hf]
    by_cases h : sh ≤ sh'
    · refine .inl ⟨q' * 2 ^ (sh' - sh), ?_⟩
      obtain ⟨k, rfl⟩ : ∃ k, sh' = sh + k := ⟨sh' - sh, by omega⟩
      rw [hden, Nat.add_sub_cancel_left, Nat.pow_add]; ring
    · have h52 : 2 ^ 52 ≤ q := by omega
      refine .inr (.inr ⟨?_, h52⟩)
      obtain ⟨k, rfl⟩ : ∃ k, sh = sh' + 1 + k := ⟨sh - (sh' + 1), by omega⟩
      rw [hden]
      have : q' * 2 ^ sh' < q * 2 ^ (sh' + 1 + k) := by
        calc q' * 2 ^ sh' < 2 ^ 53 * 2 ^ sh' := Nat.mul_lt_mul_of_pos_right hf.1 (by positivity)
          _ = 2 ^ 52 * 2 ^ (sh' + 1) := by rw [← Nat.pow_add, ← Nat.pow_add]; congr 1; omega
          _ ≤ q * 2 ^ (sh' + 1) := Nat.mul_le_mul_right _ h52
          _ ≤ _ := Nat.mul_le_mul_left _ (Nat.pow_le_pow_right (by decide) (by omega))
      calc q' * 2 ^ sh' * d < q * 2 ^ (sh' + 1 + k) * d := Nat.mul_lt_mul_of_pos_right this hd
        _ = _ := by ring
  have hdpos : 0 < den := by omega
  have hne : magOf m ≠ magOf R → magOf m * d ≠ (q + up) * den := by
    intro h h'
    rw [← hM] at h'
    exact h (Nat.eq_of_mul_eq_mul_right hd h')
  unfold dist
  rcases hcls with ⟨k, hk⟩ | ⟨hk, -⟩ | ⟨hk, -⟩
  · rw [hk]
    rw [hk] at hne
    have e1 : (q + 1) * den = q * den + den := by ring
    have hx : k ≤ q ∨ q + 1 ≤ k := by omega
    have h1 : k ≤ q → k * den ≤ q * den := fun h => Nat.mul_le_mul_right _ h
    have h1' : k + 1 ≤ q → k * den + den ≤ q * den := fun h => by
      have := Nat.mul_le_mul_right den h; rw [Nat.add_mul, Nat.one_mul] at this; exact this
    have h2 : q + 1 ≤ k → q * den + den ≤ k * den := fun h => by
      have := Nat.mul_le_mul_right den h; rw [Nat.add_mul, Nat.one_mul] at this; exact this
    have h2' : q + 2 ≤ k → q * den + 2 * den ≤ k * den := fun h => by
      have := Nat.mul_le_mul_right den h; rw [Nat.add_mul] at this; exact this
    have h3 : k = q → k * den = q * den := fun h => by rw [h]
    have h4 : k = q + 1 → k * den = q * den + den := fun h => by rw [h]; ring
    generalize k * den = K at *
    generalize hQ : q * den = Q at *
    by_cases hu : den < 2 * r ∨ (2 * r = den ∧ q % 2 = 1)
    · have hu1 : up = 1 := by rw [hup, if_pos hu]
      subst hu1
      rw [e1] at hne ⊢
      refine ⟨by omega, fun hm he => ?_⟩
      have := hne hm
      omega
    · have hu1 : up = 0 := by rw [hup, if_neg hu]
      subst hu1
      simp only [Nat.add_zero] at hne ⊢
      rw [hQ] at hne ⊢
      refine ⟨by omega, fun hm he => ?_⟩
      have := hne hm
      omega
  all_goals
    have e1 : (q + 1) * den = q * den + den := by ring
    generalize magOf m * d = K at *
    generalize hQ : q * den = Q at *
    by_cases hu : den < 2 * r ∨ (2 * r = den ∧ q % 2 = 1)
    · have hu1 : up = 1 := by rw [hup, if_pos hu]
      subst hu1
      rw [e1] at hne ⊢
      refine ⟨by omega, fun hm he => ?_⟩
      have := hne hm
      omega
    · have hu1 : up = 0 := by rw [hup, if_neg hu]
      subst hu1
      simp only [Nat.add_zero] at hne ⊢
      rw [hQ] at hne ⊢
      refine ⟨by omega, fun hm he => ?_⟩
      have := hne hm
      omega

/-- Where the unclipped bits stay below the infinity at scale `u + 1`: below the midpoint `(2^54 - 1) * 2^u`. -/
theorem overflow_aux (u n d sh q up r den I : Nat) (hd : 0 < d) (hden : den = d * 2 ^ sh) (hn : n = q * den + r)
   (hr : r < den) (hq : q < 2 ^ 53) (hs : sh = 0 ∨ 2 ^ 52 ≤ q)
   (hup : up = if den < 2 * r ∨ (2 * r = den ∧ q % 2 = 1) then 1 else 0)
   (hI : I = (u + 1) * 2 ^ 52 + 2 ^ 53) :
   sh * 2 ^ 52 + (q + up) < I ↔ n < (2 ^ 54 - 1) * 2 ^ u * d := by
  have hup1 : up ≤ 1 := by rw [hup]; split <;> omega
  have hdpos : 0 < den := by omega
  obtain ⟨P, hP⟩ : ∃ P, 2 ^ u * d = P := ⟨_, rfl⟩
  have hPpos : 0 < P := by rw [← hP]; positivity
  rw [Nat.mul_assoc, hP]
  rcases Nat.lt_trichotomy sh (u + 1) with h | h | h
  · refine ⟨fun _ => ?_, fun _ => ?_⟩
    · have h1 : n < 2 ^ 53 * den := by
        calc n < q * den + den := by omega
          _ = (q + 1) * den := by ring
          _ ≤ 2 ^ 53 * den := Nat.mul_le_mul_right _ hq
      have h2 : den ≤ P := by
        rw [hden, ← hP, Nat.mul_comm]
        exact Nat.mul_le_mul_right _ (Nat.pow_le_pow_right (by decide) (by omega))
      clear hn hup hs hden hP hI
      omega
    · have : (sh + 1) * 2 ^ 52 ≤ (u + 1) * 2 ^ 52 := Nat.mul_le_mul_right _ h
      clear hn hup hs hden hP
      omega
  · subst h
    have e2 : den = 2 * P := by rw [hden, ← hP, Nat.pow_succ]; ring
    have e1 : (u + 1) * 2 ^ 52 + (q + up) < I ↔ q + up < 2 ^ 53 := by rw [hI]; omega
    rw [e1]
    clear e1 hI hP hden hs
    by_cases hq' : q + 1 < 2 ^ 53
    · refine ⟨fun _ => ?_, fun _ => by omega⟩
      have h1 : (q + 2) * den ≤ 2 ^ 53 * den := Nat.mul_le_mul_right _ hq'
      have e : (q + 2) * den = q * den + 2 * den := by ring
      generalize q * den = Q at *
      clear hup
      omega
    · have hq'' : q = 2 ^ 53 - 1 := by omega
      subst hq''
      rw [hup, hn]
      subst e2
      have h1 : (2 ^ 53 - 1) % 2 = 1 := by decide
      by_cases hc : 2 * P < 2 * r ∨ (2 * r = 2 * P ∧ (2 ^ 53 - 1) % 2 = 1)
      · rw [if_pos hc]; clear hup hn; omega
      · rw [if_neg hc]; clear hup hn; omega
  · have h52 : 2 ^ 52 ≤ q := by omega
    have h3 : (u + 2) * 2 ^ 52 ≤ sh * 2 ^ 52 := Nat.mul_le_mul_right _ h
    have h4 : 2 ^ 52 * den ≤ n := Nat.le_trans (Nat.mul_le_mul_right _ h52) (by omega)
    have h5 : 4 * P ≤ den := by
      obtain ⟨k, rfl⟩ : ∃ k, sh = u + (2 + k) := ⟨sh - (u + 2), by omega⟩
      rw [hden, ← hP, Nat.pow_add, Nat.pow_add]
      have hk : 1 ≤ 2 ^ k := Nat.one_le_two_pow
      calc 4 * (2 ^ u * d) = (2 ^ u * d) * (2 ^ 2 * 1) := by ring
        _ ≤ (2 ^ u * d) * (2 ^ 2 * 2 ^ k) := Nat.mul_le_mul_left _ (Nat.mul_le_mul_left _ hk)
        _ = _ := by ring
    clear hn hup hs hden hP
    refine ⟨fun h' => ?_, fun h' => ?_⟩ <;> exfalso <;> omega


/-- The overflow bound as a multiple of a power of 2 whose exponent stays a variable. -/
theorem overflowMag_pow : ∃ u, u = 2044 ∧ overflowMag = (2 ^ 54 - 1) * 2 ^ u := ⟨2044, rfl, by unfold overflowMag; rfl⟩

/-- Rounding stays finite exactly below the overflow bound. -/
theorem roundMag_overflow (n d : Nat) (hd : 0 < d) :
    roundMag n d < infBits ↔ n < overflowMag * d := by
  obtain ⟨sh, q, up, r, den, hden, hn, hr, hq, hs, hup, hround⟩ := roundMag_spec n d hd
  rw [hround]
  clear hround
  obtain ⟨u, hu, hO⟩ := overflowMag_pow
  rw [hO, ← overflow_aux u n d sh q up r den infBits hd hden hn hr hq hs hup (by rw [hu]; decide)]
  simp only [min_lt_iff, lt_self_iff_false, or_false]
/-! ### The constants (R12) and the comparisons with them (R9) -/

theorem fVal_fZero : fVal fZero = 0 := by decide

theorem fVal_fMinusOne : fVal fMinusOne = -(fUnit : Int) := by
  have : fMinusOne = fOfInt (-1) := by decide +kernel
  rw [this, fVal_fOfInt _ (by decide)]
  ring

theorem fVal_f255 : fVal f255 = 255 * fUnit := by
  have : f255 = fOfInt 255 := by decide +kernel
  rw [this, fVal_fOfInt _ (by decide)]

theorem fVal_f257 : fVal f257 = 257 * fUnit := by
  have : f257 = fOfInt 257 := by decide +kernel
  rw [this, fVal_fOfInt _ (by decide)]

theorem flt_fZero {a : Binary64} (h : fIsNaN a = false) : flt a fZero = decide (fVal a < 0) := by
  have : fIsNaN fZero = false := by decide
  simp [flt, h, this, fVal_fZero]

theorem fge_fZero {a : Binary64} (h : fIsNaN a = false) : fge a fZero = decide (0 ≤ fVal a) := by
  have : fIsNaN fZero = false := by decide
  simp [fge, h, this, fVal_fZero]

theorem fge_f255 {a : Binary64} (h : fIsNaN a = false) :
    fge a f255 = decide (255 * (fUnit : Int) ≤ fVal a) := by
  have : fIsNaN f255 = false := by decide
  simp [fge, h, this, fVal_f255]

theorem flt_fMinusOne {a : Binary64} (h : fIsNaN a = false) :
    flt a fMinusOne = decide (fVal a < -(fUnit : Int)) := by
  have : fIsNaN fMinusOne = false := by decide
  simp [flt, h, this, fVal_fMinusOne]

/-! ### The class of a value -/

/-- What the model delivers for a NaN is a NaN, whatever the free value (U10). -/
theorem fIsNaN_fNaN (op : Config.FloatOp) (a b : Binary64) : fIsNaN (fNaN op a b) = true := by
  unfold fNaN
  generalize Config.nanChoice op a b = c
  simp only
  have h1 : (c.extractLsb' 0 52).toNat < 2 ^ 52 := (c.extractLsb' 0 52).isLt
  generalize (c.extractLsb' 0 52).toNat = k at *
  have h2 : (if k = 0 then 1 else k) < 2 ^ 52 := by split <;> omega
  have h3 : (if k = 0 then 1 else k) ≠ 0 := by split <;> omega
  generalize (if k = 0 then 1 else k) = j at *
  have h63 : infBits + j < 2 ^ 63 := by unfold infBits; omega
  rw [fIsNaN, fExp_fPack _ _ h63, fFrac_fPack _ _ h63]
  simp only [Bool.and_eq_true, beq_iff_eq, bne_iff_ne]
  unfold infBits
  omega

theorem fExp_fNeg (x : Binary64) : fExp (fNeg x) = fExp x := by
  rw [← fPack_eta (fNeg x), fExp_fPack _ _ (lowBits_lt _), lowBits_fNeg, ← fExp_fPack (fSign x) _ (lowBits_lt _),
    fPack_eta]

theorem fFrac_fNeg (x : Binary64) : fFrac (fNeg x) = fFrac x := by
  rw [← fPack_eta (fNeg x), fFrac_fPack _ _ (lowBits_lt _), lowBits_fNeg,
    ← fFrac_fPack (fSign x) _ (lowBits_lt _), fPack_eta]

theorem fIsNaN_fNeg (x : Binary64) : fIsNaN (fNeg x) = fIsNaN x := by
  rw [fIsNaN, fIsNaN, fExp_fNeg, fFrac_fNeg]

theorem fIsInf_fNeg (x : Binary64) : fIsInf (fNeg x) = fIsInf x := by
  rw [fIsInf, fIsInf, fExp_fNeg, fFrac_fNeg]

/-- A value that is no NaN is finite or an infinity. -/
theorem finite_or_inf {v : Binary64} (h : fIsNaN v = false) : fIsFinite v = true ∨ fIsInf v = true := by
  unfold fIsNaN at h
  unfold fIsFinite fIsInf
  cases h1 : fExp v == 2047
  · left; simpa using h1
  · right; simpa [h1] using h

/-- The quotient of two finite values, the divisor not zero: the exact quotient rounded once (R8). -/
theorem fdiv_finite {a b : Binary64} (ha : fIsFinite a = true) (hb : fIsFinite b = true) (h0 : fMag b ≠ 0) :
    fdiv a b = fPack (fSign a != fSign b) (roundMag (fUnit * fMag a) (fMag b)) := by
  simp [fdiv, not_nan_of_finite ha, not_nan_of_finite hb, not_inf_of_finite ha, not_inf_of_finite hb, h0]

end Sys2Proof.Machine
end

