-- ==== Sys2Proof/Tests/Slice0.lean ====
section
/-!
SUPPORT. Tests on fixed values, their expected results taken from spec/95_test_vectors.md (the vector is named),
and for every statement with hypotheses a witness that meets them.
-/

namespace Sys2Proof.Tests

open Sys2Proof Sys2Proof.Machine

/-! ### Small states -/

/-- After reset, with `WIDTH` and `HEIGHT` written. -/
def dims (w h : Word) : State := { State.reset with width := w, height := h }

/-- A gray buffer of integer values. -/
def gray (w h : Nat) (l : List Int) : HBuf := ⟨w, h, l.flatMap fun v => [fOfInt v, fOfInt v, fOfInt v]⟩

/-- After reset, with one buffer in `HB[0]`. -/
def holding (b : HBuf) : State := State.reset.setHB 0 b

/-- After reset, with an image in `PB[p]`. -/
def image (p : PSlot) (w h : Word) (bytes : List Byte) : State := State.reset.setPB p ⟨w, h, cellsFrom 0 bytes⟩

/-- After reset and the illegal word 0. -/
def faulted : State := raise .illegalCommand 0 State.reset

/-- The state after the issue of a command word, seen through `f`; none if the step stops. -/
def after {α : Type} (w : Word) (s : State) (f : State → α) : Option α :=
  match step (s.withCommand w) with
  | .next t => some (f t)
  | .fault _ => none
  | .refused _ => none

/-- `STATUS`, `FAULTCMD` and whether the slots are as before. -/
def record (s : State) : Word × Word := (s.regRead 1, s.regRead 4)

/-! ### WellFormed: the one check, and a term it refuses -/

theorem test_wellFormed_refuses_blur_onto_itself : (Instr.blur 3 3 1).wellFormed = false := by decide

theorem test_wellFormed_accepts_blur : (Instr.blur 3 2 1).wellFormed = true := by decide

/-! ### Decoding, the words written out bit by bit from R71 (`op`, `d`, `a`, `b`, `imm`) -/

theorem test_decode_create : decode 0b0001_0010_0000_0000_0000000000000000#32 = .ok (.create 2) := by rfl

theorem test_decode_frompix : decode 0b0010_0111_0011_0000_0000000000000000#32 = .ok (.frompix 7 3) := by rfl

theorem test_decode_topix : decode 0b0011_0011_0111_0000_0000000000000000#32 = .ok (.topix 3 7) := by rfl

theorem test_decode_blur : decode 0b0100_0111_0110_0000_0000000000001000#32 = .ok (.blur 7 6 8) := by rfl

theorem test_decode_diff : decode 0b0101_0011_0101_0111_0000000000000000#32 = .ok (.diff 3 5 7) := by rfl

/-- The illegal words of B1, each with the condition of R76 its row gives. -/
theorem test_decode_illegal :
    [0x00000000#32, 0xFFFFFFFF#32, 0x60000000#32, 0xF0000000#32].map decode =
      List.replicate 4 (.error .opcode) ∧
    [0x10000001#32, 0x10100000#32, 0x10010000#32, 0x20010000#32, 0x31110000#32, 0x41010002#32,
      0x51130001#32].map decode = List.replicate 7 (.error .reservedField) ∧
    [0x18000000#32, 0x28000000#32, 0x30800000#32, 0x48000002#32, 0x40800002#32, 0x51930000#32,
      0x50080000#32].map decode = List.replicate 7 (.error .hpSlot) ∧
    [0x20400000#32, 0x34100000#32, 0x54000000#32].map decode = List.replicate 3 (.error .pixSlot) ∧
    [0x41100002#32, 0x41100000#32].map decode = List.replicate 2 (.error .sameSlot) := by
  refine ⟨rfl, rfl, rfl, rfl, rfl⟩

theorem test_decodeTableWord : decodeTableWord 32 0x4100FFFF = some (.blur 1 0 65535) ∧
    decodeTableWord 32 0x41100002 = none := by decide

/-! ### One step of each command -/

/-- B2.1. -/
theorem test_create : after 0x12000000#32 (dims 3 2)
    (fun t => (t.regRead 20, t.regRead 21, (t.buf 2).px, t.regRead 1)) =
      some (3, 2, List.replicate 18 0, 0) := by decide +kernel

/-- E2: the product of -1 and -1 is positive, yet the error is `InvalidDimension`. -/
theorem test_create_negative : after 0x10000000#32 (dims 0xFFFFFFFF 0xFFFFFFFF) record =
    some (0x00000011#32, 0x10000000#32) := by decide +kernel

/-- B2.3, its first command. -/
theorem test_frompix : after 0x20000000#32 (image 0 2 1 [0x00, 0x80, 0xFF, 0x01, 0x02, 0x03])
    (fun t => (t.buf 0).px) =
      some [0x0000000000000000#64, 0x4060000000000000#64, 0x406FE00000000000#64, 0x3FF0000000000000#64,
        0x4000000000000000#64, 0x4008000000000000#64] := by decide +kernel

/-- E19. -/
theorem test_frompix_too_large : after 0x25200000#32 (image 2 100 100 []) record =
    some (0x00000021#32, 0x25200000#32) := by decide +kernel

/-- P1's last command on its last two pixels: 42.5 and 63.75 become 42 and 63; the byte after stays unwritten. -/
theorem test_topix : after 0x31000000#32
    (holding ⟨2, 1, List.replicate 3 0x4045400000000000#64 ++ List.replicate 3 0x404FE00000000000#64⟩)
    (fun t => (t.regRead 10, t.regRead 11, (t.slot 1).mem)) =
      some (2, 1, [(0, 42), (1, 42), (2, 42), (3, 63), (4, 63), (5, 63)]) := by decide +kernel

/-- E10. -/
theorem test_topix_empty : after 0x30000000#32 State.reset record =
    some (0x00000051#32, 0x30000000#32) := by decide +kernel

/-- B3.6: the row (10, 20, 30, 40, 250) at radius 1. -/
theorem test_blur : after 0x41000001#32 (holding (gray 5 1 [10, 20, 30, 40, 250]))
    (fun t => (List.range 5).map (fun x => (t.buf 1).at x 0 0)) =
      some [0x402E000000000000#64, 0x4034000000000000#64, 0x403E000000000000#64, 0x405AAAAAAAAAAAAB#64,
        0x4062200000000000#64] := by decide +kernel

/-- E13. -/
theorem test_blur_onto_itself : after 0x41100000#32 State.reset record =
    some (0x00000041#32, 0x41100000#32) := by decide +kernel

/-- B5.2, the last row of its image: small (9, 10, 11, 12), large (7.5, 8, 9, 9.5). -/
theorem test_diff : after 0x51010000#32
    ((holding (gray 4 1 [9, 10, 11, 12])).setHB 1
      ⟨4, 1, [0x401E000000000000#64, 0x4020000000000000#64, 0x4022000000000000#64,
        0x4023000000000000#64].flatMap (List.replicate 3)⟩)
    (fun t => (t.slot 1).mem.map Prod.snd) =
      some [255, 255, 255, 255, 255, 255, 255, 255, 255, 254, 254, 254] := by decide +kernel

/-- E22's DIFF: 2x3 against 3x2. -/
theorem test_diff_mismatch : after 0x51010000#32
    ((holding (gray 2 3 [0, 0, 0, 0, 0, 0])).setHB 1 (gray 3 2 [0, 0, 0, 0, 0, 0])) record =
      some (0x00000031#32, 0x51010000#32) := by decide +kernel

/-- B5.1, the two rows where the rounding of `fadd` matters, and the first row past the wrap. -/
theorem test_quantize_rounded : quantize 0xBFF0000000000001#64 = 255 ∧
    quantize 0xC000000000000001#64 = 255 ∧ quantize 0xC004000000000000#64 = 254 ∧
    quantize 0xC070180000000000#64 = 0 := by decide +kernel

/-- H5 and H4: a writable register keeps what is written; a reserved number does not. -/
theorem test_registers : (State.reset.regWrite 10 0xFFFFFFFF).regRead 10 = 0xFFFFFFFF#32 ∧
    State.reset.regWrite 5 7 = State.reset := by decide

/-! ### Witnesses: for every statement with hypotheses, a state and operands that meet them -/

theorem witness_DecodeOfEncode : (Instr.blur 7 0 65535).wellFormed = true := by decide

theorem witness_EncodeOfDecode : decode 0x4100FFFF#32 = .ok (.blur 1 0 65535) := by rfl

theorem witness_IllegalWordsExactly : illegalWord 0x60000000#32 ∧ illegalWord 0x10000001#32 ∧
    illegalWord 0x18000000#32 ∧ illegalWord 0x20400000#32 ∧ illegalWord 0x41100000#32 ∧
    faultFlag State.reset.status = false := by
  unfold illegalWord
  refine ⟨by decide, by decide, by decide, by decide, by decide, by decide⟩

theorem witness_CommandIssue : faultFlag faulted.status = true ∧ faultFlag State.reset.status = false ∧
    decode 0x00000000#32 = .error .opcode ∧ decode 0x17000000#32 = .ok (.create 7) := by
  refine ⟨by decide, by decide, rfl, rfl⟩

theorem witness_StepRunsDecodedCommand : faultFlag State.reset.status = false ∧
    decode 0x17000000#32 = .ok (.create 7) ∧
    (State.reset.withProgram [.regWrite 0 0x17000000#32]).todo = [.regWrite 0 0x17000000#32] := by
  refine ⟨by decide, rfl, rfl⟩

/-- A state with a buffer, written pixel memory and a recorded error that meets the invariant. -/
def live : State :=
  raise .emptyBuffer 0x30700000#32
    ((holding (gray 1 2 [255, 0])).setPB 3 ⟨1, 1, [(0, 7), (12287, 9)]⟩)

theorem live_inv : live.Inv where
  buffers := by
    intro i
    unfold HBuf.valid
    revert i
    decide +kernel
  memories := by
    intro p
    unfold Memory.valid
    revert p
    decide +kernel
  record := .inr ⟨.emptyBuffer, by decide⟩

theorem witness_RegisterReads : live.Inv ∧ (5 = 5 ∨ 31 < 32) := ⟨live_inv, .inl rfl⟩

theorem witness_RegisterWrites : (15 : Nat) ≠ 0 ∧ (16 : Nat) ≠ 0 := by decide

/-- A platform whose registers lie 4 apart from 0 and whose pixel regions follow one another without a gap. -/
def compactMap : Config.BusMap := ⟨0, 4, fun p => 256 + 12288 * p⟩

/-- The last register; the last byte of region 2, beside region 3; and, refused, 4 bytes between two registers, 1
byte below the regions, and 2 bytes. -/
theorem witness_BusAccess :
    (31 < 32 ∧ ∀ k, k < 32 → compactMap.regAddr k = compactMap.regAddr 31 → k = 31) ∧
    (2 < 4 ∧ 12287 < 3 * State.reset.maxPix ∧ ∀ q, q < 4 → compactMap.pixBase q ≤ compactMap.pixBase 2 + 12287 →
      compactMap.pixBase 2 + 12287 < compactMap.pixBase q + 3 * State.reset.maxPix → q = 2) ∧
    (¬(4 = 4 ∧ ∃! n, n < 32 ∧ 126 = compactMap.regAddr n) ∧ ¬4 = 1) ∧
    (¬1 = 4 ∧ ¬∃! p, p < 4 ∧ compactMap.pixBase p ≤ 255 ∧ 255 < compactMap.pixBase p + 3 * State.reset.maxPix) ∧
    (¬2 = 4 ∧ ¬2 = 1) := by
  have hc : State.reset.maxPix = 4096 := by decide
  simp only [compactMap, Config.BusMap.regAddr, hc]
  refine ⟨⟨by omega, by omega⟩, ⟨by omega, by omega, by omega⟩, ⟨?_, by omega⟩, ⟨by omega, ?_⟩, by omega, by omega⟩
  · rintro ⟨-, n, ⟨-, h⟩, -⟩; omega
  · rintro ⟨p, ⟨-, h, -⟩, -⟩; omega

theorem witness_WritersOfState : Access.onBus (.regWrite 0 0x17000000#32) = false ∧
    Access.regWrite 0 0x17000000#32 ≠ .reset ∧
    perform (.regWrite 0 0x17000000#32) (dims 1 1) =
      .next ((dims 1 1).setHB 7 ⟨1, 1, [0, 0, 0]⟩) ∧
    ((dims 1 1).setHB 7 ⟨1, 1, [0, 0, 0]⟩).buf 7 ≠ (dims 1 1).buf 7 := by
  refine ⟨rfl, by decide, by rfl, by decide⟩

theorem witness_ChannelValuesHidden :
    let s := holding (gray 1 1 [3])
    let t := { s with hb := (holding (gray 1 1 [4])).hb }
    t = { s with hb := t.hb } ∧
      (∀ i : HSlot, (t.buf i).w = (s.buf i).w ∧ (t.buf i).h = (s.buf i).h) ∧
      (∀ w, Access.regRead 16 ≠ .regWrite 0 w) ∧ Access.onBus (.regRead 16) = false ∧
      perform (.regRead 16) s = .next { s with reply := some (.word 1) } ∧
      perform (.regRead 16) t = .next { t with reply := some (.word 1) } := by
  refine ⟨rfl, by decide +kernel, fun _ h => (by cases h), rfl, rfl, rfl⟩

theorem witness_FaultIsSticky : faultFlag live.status = true ∧
    (∀ a ∈ (live.withProgram [.regWrite 0 0x10000000#32]).todo, a ≠ .reset) ∧
    runSteps 1 (live.withProgram [.regWrite 0 0x10000000#32]) = .next live := by
  refine ⟨by decide, by decide, rfl⟩

theorem witness_InvalidDimensionRaised : (dims 0 5).width.toInt ≤ 0 ∧
    (dims 5 0x80000000#32).height.toInt ≤ 0 ∧ ((image 0 3 0 []).slot 0).h.toInt ≤ 0 ∧
    ((image 0 0xFFFFFFFF#32 1 []).slot 0).w.toInt ≤ 0 := by decide

theorem witness_AllocationFailureRaised :
    (0 < (dims 4097 1).width.toInt ∧ 0 < (dims 4097 1).height.toInt ∧
      ((dims 4097 1).maxPix : Int) < (dims 4097 1).width.toInt * (dims 4097 1).height.toInt) ∧
    (0 < ((image 0 1 4097 []).slot 0).w.toInt ∧ 0 < ((image 0 1 4097 []).slot 0).h.toInt ∧
      ((image 0 1 4097 []).maxPix : Int) <
        ((image 0 1 4097 []).slot 0).w.toInt * ((image 0 1 4097 []).slot 0).h.toInt) ∧
    (faultFlag (dims 4097 1).status = false ∧
      exec (.create 0) (dims 4097 1) = .next (raise .allocationFailure 0x10000000#32 (dims 4097 1))) ∧
    (faultFlag (image 0 1 4097 []).status = false ∧ exec (.frompix 0 0) (image 0 1 4097 []) =
      .next (raise .allocationFailure 0x20000000#32 (image 0 1 4097 []))) ∧
    (∀ w s, faultFlag (raise .allocationFailure w s).status = true ∧
      errField (raise .allocationFailure w s).status = errorCode .allocationFailure) ∧
    exec (.blur 1 0 1) State.reset = .next (raise .emptyBuffer 0x41000001#32 State.reset) :=
  ⟨by decide, by decide, ⟨by decide, rfl⟩, ⟨by decide, rfl⟩,
    fun _ _ => ⟨(by decide : faultFlag (faultStatus _) = _), (by decide : errField (faultStatus _) = _)⟩, rfl⟩

/-- Two buffers of different shapes and the same size. -/
def shapes : State := (holding (gray 1 2 [0, 0])).setHB 1 (gray 2 1 [0, 0])

theorem witness_DimensionMismatchRaised : (shapes.buf 0).w ≠ 0 ∧ (shapes.buf 1).w ≠ 0 ∧
    ((shapes.buf 0).w ≠ (shapes.buf 1).w ∨ (shapes.buf 0).h ≠ (shapes.buf 1).h) := by decide +kernel

theorem witness_EmptyBufferRaised : (shapes.buf 2).w = 0 ∧ (3 : HSlot) ≠ 2 := by decide +kernel

theorem witness_StepKeepsInv : live.Inv ∧ step live = .next live := ⟨live_inv, rfl⟩

theorem witness_FaultRecordNamesItsCause :
    live.recordConsistent ∧ step live = .next live := by
  refine ⟨.inr ⟨.emptyBuffer, by decide, ?_⟩, rfl⟩
  have : decode live.faultcmd = .ok (.topix 0 7) := rfl
  rw [this]
  rfl

theorem witness_StepAnswers : live.Inv := live_inv

/-- The largest image of the capacity: `W * H = MAXPIX`. -/
theorem witness_CreateFillsWithZero : 0 < (dims 4096 1).width.toInt ∧ 0 < (dims 4096 1).height.toInt ∧
    (dims 4096 1).width.toInt * (dims 4096 1).height.toInt ≤ (dims 4096 1).maxPix := by decide

/-- Also the hypotheses of NarrowAfterWiden. -/
theorem witness_FrompixWidens : let s := image 0 64 64 []
    0 < (s.slot 0).w.toInt ∧ 0 < (s.slot 0).h.toInt ∧
      (s.slot 0).w.toInt * (s.slot 0).h.toInt ≤ s.maxPix := by decide

theorem witness_NarrowAfterWiden : let s := image 3 1 4096 []
    0 < (s.slot 3).w.toInt ∧ 0 < (s.slot 3).h.toInt ∧
      (s.slot 3).w.toInt * (s.slot 3).h.toInt ≤ s.maxPix := by decide

theorem shapes_valid : (shapes.buf 0).valid shapes.maxPix ∧ (shapes.buf 1).valid shapes.maxPix := by
  unfold HBuf.valid
  decide +kernel

theorem witness_TopixNarrows : (shapes.buf 0).valid shapes.maxPix ∧ (shapes.buf 0).w ≠ 0 :=
  ⟨shapes_valid.1, by decide +kernel⟩

theorem witness_BlurRadiusZeroCopies : (1 : HSlot) ≠ 0 ∧ (shapes.buf 0).valid shapes.maxPix ∧
    (shapes.buf 0).w ≠ 0 := ⟨by decide, shapes_valid.1, by decide +kernel⟩

/-- At the smallest and at the largest radius. -/
theorem witness_BlurIsWindowMean : (0 : HSlot) ≠ 1 ∧ (1 : BitVec 16) ≠ 0 ∧ (65535 : BitVec 16) ≠ 0 ∧
    (shapes.buf 1).valid shapes.maxPix ∧ (shapes.buf 1).w ≠ 0 :=
  ⟨by decide, by decide, by decide, shapes_valid.2, by decide +kernel⟩

theorem witness_DiffQuantizes : (shapes.buf 1).valid shapes.maxPix ∧ (shapes.buf 1).w ≠ 0 ∧
    (shapes.buf 1).w = (shapes.buf 1).w ∧ (shapes.buf 1).h = (shapes.buf 1).h :=
  ⟨shapes_valid.2, by decide +kernel, rfl, rfl⟩

/-- The largest finite value and the least subnormal. -/
theorem witness_RoundsToNearestEven : fIsFinite 0x7FEFFFFFFFFFFFFF#64 = true ∧
    fIsFinite 0x8000000000000001#64 = true ∧ fMag 0x8000000000000001#64 ≠ 0 ∧
    fVal 0x8000000000000001#64 + fVal 0x0000000000000001#64 = 0 ∧
    fVal 0x8000000000000000#64 - fVal 0x0000000000000000#64 = 0 ∧
    (fIsFinite 0x8000000000000000#64 = true ∧ fVal 0x8000000000000000#64 = 0 ∧ fMag f255 ≠ 0) := by decide +kernel

theorem witness_FloorIsExact : fIsFinite 0xBFE0000000000000#64 = true ∧
    fIsFinite 0x7FF0000000000000#64 = false ∧ fMag 0x8000000000000000#64 = 0 := by decide +kernel

theorem witness_ConversionsAreExact : (1 ≤ 1 ∧ 1 ≤ 2 ^ 30) ∧ (255 ≤ 255 ∧ fVal f255 = (255 : Nat) * fUnit) ∧
    (0 ≤ 255 ∧ fVal 0x8000000000000000#64 = (0 : Nat) * fUnit) := by decide +kernel

theorem witness_NarrowFloorsThenClamps : fIsNaN 0x7FF8000000000000#64 = true ∧
    fIsFinite 0xC072C00000000000#64 = true ∧ fIsInf 0xFFF0000000000000#64 = true := by decide +kernel

/-- One value in each branch, at its boundary: NaN, 255, -1, 0, the values just below -1, -258 and -257. -/
theorem witness_QuantizeBranches : fIsNaN 0x7FF8000000000000#64 = true ∧ fIsNaN f255 = false ∧
    255 * (fUnit : Int) ≤ fVal f255 ∧
    (-(fUnit : Int) ≤ fVal fMinusOne ∧ fVal fMinusOne < 0) ∧
    (0 ≤ fVal fZero ∧ fVal fZero < 255 * fUnit) ∧
    (fVal 0xBFF0000000000001#64 < -(fUnit : Int) ∧
      255 * (fUnit : Int) ≤ fVal (fadd 0xBFF0000000000001#64 f257)) ∧
    (fVal 0xC070200000000000#64 < -(fUnit : Int) ∧ fVal (fadd 0xC070200000000000#64 f257) < 0) ∧
    (fVal 0xC070100000000000#64 < -(fUnit : Int) ∧ 0 ≤ fVal (fadd 0xC070100000000000#64 f257) ∧
      fVal (fadd 0xC070100000000000#64 f257) < 255 * fUnit) := by decide +kernel

/-- -2, -257 and the value just below -257. -/
theorem witness_QuantizeWraps : fIsFinite 0xC000000000000000#64 = true ∧
    (-2 * (fUnit : Int) ≤ fVal 0xC000000000000000#64 ∧ fVal 0xC000000000000000#64 < -(fUnit : Int)) ∧
    fVal 0xC070100000000000#64 = -257 * fUnit ∧
    (fIsFinite 0xC070100000000001#64 = true ∧ fVal 0xC070100000000001#64 < -257 * (fUnit : Int)) := by
  decide +kernel

theorem witness_SpecialOperands : fIsNaN 0x7FF8000000000000#64 = true ∧ fIsInf 0x7FF0000000000000#64 = true ∧
    fIsInf 0xFFF0000000000000#64 = true ∧ fSign 0x7FF0000000000000#64 ≠ fSign 0xFFF0000000000000#64 ∧
    fIsFinite fMinusOne = true ∧ fMag fMinusOne ≠ 0 ∧ fIsFinite fZero = true ∧ fMag fZero = 0 := by
  decide +kernel

theorem witness_WindowIsClipped : (0 < 1 ∧ 0 < 1) ∧ (2 ≤ 2 ∧ 2 + 2 < 5) := by decide

/-- The image of one column (255, 0): the extreme bytes. -/
theorem witness_FirstPassIsRoundedMean : let s := holding (gray 1 2 [255, 0])
    (1 : HSlot) ≠ 0 ∧ (1 : BitVec 16) ≠ 0 ∧ (s.buf 0).valid s.maxPix ∧ (s.buf 0).w ≠ 0 ∧
      ∀ x y, x < (s.buf 0).w → y < (s.buf 0).h →
        (fun _ y => if y = 0 then 255 else 0 : Nat → Nat → Nat) x y ≤ 255 ∧
          (s.buf 0).at x y 2 = fOfInt ((fun _ y => if y = 0 then 255 else 0 : Nat → Nat → Nat) x y) := by
  refine ⟨by decide, by decide, ?_, by decide +kernel, fun x y hx hy => ?_⟩
  · unfold HBuf.valid; decide +kernel
  · have hx' : x < 1 := hx
    have hy' : y < 2 := hy
    interval_cases x
    interval_cases y <;> decide +kernel

theorem witness_ConstantImageIsFixed : let s := holding (gray 1 1 [2 ^ 52])
    (1 : HSlot) ≠ 0 ∧ (s.buf 0).valid s.maxPix ∧ (s.buf 0).w ≠ 0 ∧
      (∀ _c : Chan, (2 ^ 52 : Int).natAbs * (2 * ((s.buf 0).w * (s.buf 0).h)) ≤ 2 ^ 53) ∧
      ∀ x y (c : Chan), x < (s.buf 0).w → y < (s.buf 0).h → (s.buf 0).at x y c = fOfInt (2 ^ 52) := by
  refine ⟨by decide, ?_, by decide +kernel, by decide +kernel, fun x y c hx hy => ?_⟩
  · unfold HBuf.valid; decide +kernel
  · have hx' : x < 1 := hx
    have hy' : y < 1 := hy
    interval_cases x
    interval_cases y
    revert c
    decide +kernel

/-- The second clause of ConstantImageIsFixed, and FlatImageHasZeroBands. -/
theorem witness_PseudoInstructionWords : (4 : HSlot) ≠ 5 := by decide

theorem witness_ChainOntoItself : let s := image 0 1 1 [1, 2, 255]
    faultFlag s.status = false ∧ 0 < (s.slot 0).w.toInt ∧ 0 < (s.slot 0).h.toInt ∧
      (s.slot 0).w.toInt * (s.slot 0).h.toInt ≤ s.maxPix ∧
      exec (.frompix 0 0) s = .next (s.setHB 0 ⟨1, 1, [fOfU8 1, fOfU8 2, fOfU8 255]⟩) := by
  refine ⟨by decide, by decide, by decide, by decide, rfl⟩

theorem witness_FlatImageHasZeroBands : let s := image 0 1 1 [1, 2, 255]
    faultFlag s.status = false ∧ 0 < (s.slot 0).w.toInt ∧ 0 < (s.slot 0).h.toInt ∧
      (s.slot 0).w.toInt * (s.slot 0).h.toInt ≤ s.maxPix ∧
      (∀ (k : Nat) (c : Chan), (k : Int) < (s.slot 0).w.toInt * (s.slot 0).h.toInt →
        s.pixByte 0 (3 * k + c) = ([1, 2, 255] : List Byte)[c]) ∧
      exec (.frompix 0 0) s = .next (s.setHB 0 ⟨1, 1, [fOfInt 1, fOfInt 2, fOfInt 255]⟩) := by
  refine ⟨by decide, by decide, by decide, by decide, fun k c hk => ?_, by rfl⟩
  have hk' : (k : Int) < 1 := hk
  have : k = 0 := by omega
  subst this
  revert c
  decide

theorem witness_BorderProperties : let s := holding ⟨1, 1, [fZero, fMinusOne, 0x8000000000000000#64]⟩
    (1 : HSlot) ≠ 0 ∧ (65535 : BitVec 16) ≠ 0 ∧ (s.buf 0).valid s.maxPix ∧ (s.buf 0).w ≠ 0 ∧
      (s.buf 0).w = 1 ∧ (s.buf 0).h = 1 ∧ fIsNaN ((s.buf 0).at 0 0 2) = false ∧
      (s.buf 0).w - 1 ≤ (65535 : BitVec 16).toNat ∧ (s.buf 0).h - 1 ≤ (65535 : BitVec 16).toNat := by
  unfold HBuf.valid
  decide +kernel

/-- Two states that differ in channel 1 and agree in channel 0. -/
theorem witness_ChannelsAreIndependent :
    let s := holding ⟨1, 1, [fZero, fZero, fZero]⟩
    let s' := holding ⟨1, 1, [fZero, fMinusOne, fZero]⟩
    (s.buf 0).valid s.maxPix ∧ (s'.buf 0).valid s'.maxPix ∧ (1 : HSlot) ≠ 0 ∧ (s.buf 0).w ≠ 0 ∧
      (s'.buf 0).w = (s.buf 0).w ∧ (s'.buf 0).h = (s.buf 0).h ∧
      (∀ x y, x < (s.buf 0).w → y < (s.buf 0).h → (s'.buf 0).at x y 0 = (s.buf 0).at x y 0) ∧
      exec (.blur 1 0 0) s = .next (s.setHB 1 (s.buf 0)) ∧
      exec (.blur 1 0 0) s' = .next (s'.setHB 1 (s'.buf 0)) := by
  refine ⟨?_, ?_, by decide, by decide +kernel, rfl, rfl, fun x y hx hy => ?_, rfl, rfl⟩
  · unfold HBuf.valid; decide +kernel
  · unfold HBuf.valid; decide +kernel
  · have hx' : x < 1 := hx
    have hy' : y < 1 := hy
    interval_cases x
    interval_cases y
    rfl

theorem witness_DiffOfEqualIsZero : (shapes.buf 0).valid shapes.maxPix ∧ (shapes.buf 0).w ≠ 0 ∧
    shapes.buf 0 = shapes.buf 0 ∧ fIsFinite fMinusOne = true :=
  ⟨shapes_valid.1, by decide +kernel, rfl, by decide⟩

theorem witness_DisjointCommandsCommute :
    hpDest (.create 2) = some 2 ∧ hpDest (.create 3) = some 3 ∧ (2 : HSlot) ≠ 3 ∧
      (2 : HSlot) ∉ hpReads (.create 3) ∧ (3 : HSlot) ∉ hpReads (.create 2) ∧
      faultFlag (dims 1 1).status = false ∧
      exec (.create 2) (dims 1 1) = .next ((dims 1 1).setHB 2 ⟨1, 1, [0, 0, 0]⟩) ∧
      exec (.create 3) (dims 1 1) = .next ((dims 1 1).setHB 3 ⟨1, 1, [0, 0, 0]⟩) := by
  refine ⟨rfl, rfl, by decide, by decide, by decide, by decide, by rfl, by rfl⟩

end Sys2Proof.Tests
end

section
/-!
Correct rounding (R8): a packed rounded magnitude with the sign of the exact result is `NearestEven` to it, and
`fadd`, `fsub` and `fdiv` of finite values deliver such a pattern. Settles O33.
-/

namespace Sys2Proof.Machine

/-! ### Distances of signed values and of their magnitudes -/

theorem dist_natAbs_le (p n : Int) : dist p.natAbs n.natAbs ≤ (p - n).natAbs := by
  unfold dist; omega

theorem natAbs_sub_of_mul_nonneg {p n : Int} (h : 0 ≤ p * n) : (p - n).natAbs = dist p.natAbs n.natAbs := by
  unfold dist
  rcases mul_nonneg_iff.mp h with ⟨hp, hn⟩ | ⟨hp, hn⟩ <;> omega

/-! ### A packed rounded magnitude -/

theorem roundMag_zero (d : Nat) : roundMag 0 d = 0 := by simp [roundMag]

theorem fIsInf_fPack_infBits (s : Bool) : fIsInf (fPack s infBits) = true := by cases s <;> decide

/-- A rounded magnitude is finite or the magnitude of an infinity. -/
theorem fIsInf_fPack_roundMag {s : Bool} {n d : Nat} (h : fIsFinite (fPack s (roundMag n d)) = false) :
    fIsInf (fPack s (roundMag n d)) = true := by
  have hge : ¬roundMag n d < infBits := fun hlt => by simp [fIsFinite_fPack s _ hlt] at h
  rw [Nat.le_antisymm (roundMag_le n d) (Nat.not_lt.mp hge)]
  exact fIsInf_fPack_infBits s

/-- With the sign of `n / d`, the rounded magnitude is on the side of zero where `n / d` is. -/
theorem fVal_fPack_mul_nonneg {s : Bool} {m : Nat} {n d : Int} (hm : m < 2 ^ 63)
    (hs : n ≠ 0 → (s = true ↔ n * d < 0)) : 0 ≤ fVal (fPack s m) * d * n := by
  have hM : (0 : Int) ≤ magOf m := Int.natCast_nonneg _
  rw [fVal_fPack s m hm]
  by_cases h0 : n = 0
  · simp [h0]
  · cases s
    · have hnd : 0 ≤ n * d := by simpa using hs h0
      calc (0 : Int) ≤ magOf m * (n * d) := mul_nonneg hM hnd
        _ = _ := by simp only [Bool.false_eq_true, if_false]; ring
    · have hnd : n * d < 0 := (hs h0).mp rfl
      calc (0 : Int) ≤ magOf m * -(n * d) := mul_nonneg hM (by omega)
        _ = _ := by simp only [if_true]; ring

/-- The rounding lemma: the magnitude of `n / d` rounded once, with the sign of `n / d`, is `n / d` rounded to
nearest, ties to even. -/
theorem nearestEven_fPack_roundMag {s : Bool} {n d : Int} (hd : d ≠ 0) (hs : n ≠ 0 → (s = true ↔ n * d < 0)) :
    NearestEven (fPack s (roundMag n.natAbs d.natAbs)) n d := by
  have hd' : 0 < d.natAbs := Int.natAbs_pos.mpr hd
  have hlt := roundMag_lt n.natAbs d.natAbs
  have hover := roundMag_overflow n.natAbs d.natAbs hd'
  have hinf := fIsInf_fPack_roundMag (s := s) (n := n.natAbs) (d := d.natAbs)
  have hround := roundMag_nearest n.natAbs d.natAbs hd'
  have hzero : n = 0 → roundMag n.natAbs d.natAbs = 0 := fun h => by rw [h, Int.natAbs_zero, roundMag_zero]
  generalize roundMag n.natAbs d.natAbs = R at *
  have hfin : fIsFinite (fPack s R) = true ↔ R < infBits := by rw [fIsFinite_iff, lowBits_fPack _ _ hlt]
  have hdist : (fVal (fPack s R) * d - n).natAbs = dist (magOf R * d.natAbs) n.natAbs := by
    rw [natAbs_sub_of_mul_nonneg (fVal_fPack_mul_nonneg hlt hs), Int.natAbs_mul, natAbs_fVal, fMag_fPack _ _ hlt]
  have hother : ∀ y, dist (magOf (lowBits y) * d.natAbs) n.natAbs ≤ (fVal y * d - n).natAbs := fun y => by
    rw [← fMag_eq, ← natAbs_fVal, ← Int.natAbs_mul]
    exact dist_natAbs_le _ _
  refine
    { finite := hfin.trans hover
      infinite := hinf
      sign := fun h0 => by rw [fSign_fPack _ _ hlt, hs h0]
      nearest := fun hx y _ => hdist.trans_le ((hround (hfin.mp hx) (lowBits y)).1.trans (hother y))
      ties := fun hx y _ hne htie => ?ties }
  case ties =>
    obtain ⟨hnear, heven⟩ := hround (hfin.mp hx) (lowBits y)
    rw [fFrac_fPack _ _ hlt, Nat.mod_mod_of_dvd _ (by decide : 2 ∣ 2 ^ 52)]
    by_cases hmag : magOf (lowBits y) = magOf R
    case neg => exact heven hmag (by have := hother y; omega)
    case pos =>
      -- Values of one magnitude are opposite, and only an exact zero lies midway between them.
      have hopp : fVal y = -fVal (fPack s R) := by
        rw [← fMag_eq, ← fMag_fPack s _ hlt, ← natAbs_fVal, ← natAbs_fVal] at hmag
        omega
      have hn : n = 0 := by
        have hxd : fVal (fPack s R) * d ≠ 0 := mul_ne_zero (by omega) hd
        rw [hopp, neg_mul] at htie
        omega
      rw [hzero hn]

/-! ### Sums and differences -/

/-- The sign of a sum: where the exact sum is zero, the minus sign only of two minus signs (R8). -/
def sumSign (a b : Binary64) : Bool :=
  if fVal a + fVal b = 0 then fSign a && fSign b else decide (fVal a + fVal b < 0)

theorem fSum_eq_fPack_sumSign {a b : Binary64} (nan : Binary64) (ha : fIsFinite a = true)
    (hb : fIsFinite b = true) :
    fSum nan a b = fPack (sumSign a b) (roundMag (fVal a + fVal b).natAbs (1 : Int).natAbs) := by
  rw [fSum_finite nan ha hb, sumSign]
  by_cases h : fVal a + fVal b = 0
  · rw [if_pos h, if_pos h, h, Int.natAbs_zero, roundMag_zero]
  · rw [if_neg h, if_neg h, Int.natAbs_one]

theorem nearestEven_fSum {a b : Binary64} (nan : Binary64) (ha : fIsFinite a = true) (hb : fIsFinite b = true) :
    NearestEven (fSum nan a b) (fVal a + fVal b) 1 := by
  rw [fSum_eq_fPack_sumSign nan ha hb]
  refine nearestEven_fPack_roundMag one_ne_zero fun h => ?_
  rw [sumSign, if_neg h, mul_one, decide_eq_true_iff]

theorem fPack_zero (s : Bool) : fPack s 0 = if s then fNeg fZero else fZero := by cases s <;> decide

theorem fSum_of_fVal_add_eq_zero {a b : Binary64} (nan : Binary64) (ha : fIsFinite a = true)
    (hb : fIsFinite b = true) (h : fVal a + fVal b = 0) :
    fSum nan a b = if fSign a && fSign b then fNeg fZero else fZero := by
  rw [fSum_finite nan ha hb, if_pos h, fPack_zero]

/-! ### Quotients -/

theorem fVal_neg_iff {x : Binary64} (h : fMag x ≠ 0) : fVal x < 0 ↔ fSign x = true := by
  unfold fVal
  cases fSign x
  · simp
  · simpa using Nat.pos_of_ne_zero h

theorem fVal_eq_zero_iff {x : Binary64} : fVal x = 0 ↔ fMag x = 0 := by
  rw [← natAbs_fVal, Int.natAbs_eq_zero]

theorem mul_fUnit_neg_iff (z : Int) : z * fUnit < 0 ↔ z < 0 := by
  have hu : (0 : Int) < fUnit := by exact_mod_cast fUnit_pos
  rw [← not_le, ← not_le, mul_nonneg_iff_of_pos_right hu]

/-- A product in sign and magnitude. -/
theorem fVal_mul (a b : Binary64) :
    fVal a * fVal b = if fSign a != fSign b then -((fMag a * fMag b : Nat) : Int) else (fMag a * fMag b : Nat) := by
  unfold fVal
  cases fSign a <;> cases fSign b <;> simp

/-- The product of two values that are not zero is negative exactly when their signs differ. -/
theorem fVal_mul_neg_iff {a b : Binary64} (ha : fMag a ≠ 0) (hb : fMag b ≠ 0) :
    fVal a * fVal b < 0 ↔ (fSign a != fSign b) = true := by
  have hpos : 0 < fMag a * fMag b := Nat.mul_pos (by omega) (by omega)
  rw [fVal_mul]
  generalize fMag a * fMag b = m at hpos ⊢
  cases fSign a != fSign b
  · simp
  · simpa using hpos

theorem nearestEven_fdiv {a b : Binary64} (ha : fIsFinite a = true) (hb : fIsFinite b = true)
    (h0 : fMag b ≠ 0) : NearestEven (fdiv a b) (fVal a * fUnit) (fVal b) := by
  have hn : fUnit * fMag a = (fVal a * fUnit).natAbs := by
    rw [Int.natAbs_mul, natAbs_fVal, Int.natAbs_natCast, Nat.mul_comm]
  rw [fdiv_finite ha hb h0, hn, ← natAbs_fVal b]
  refine nearestEven_fPack_roundMag (fVal_eq_zero_iff.not.mpr h0) fun hne => ?_
  have hma : fMag a ≠ 0 := fVal_eq_zero_iff.not.mp (left_ne_zero_of_mul hne)
  rw [← fVal_mul_neg_iff hma h0, mul_right_comm, mul_fUnit_neg_iff]

theorem fSign_fdiv_finite {a b : Binary64} (ha : fIsFinite a = true) (hb : fIsFinite b = true)
    (h0 : fMag b ≠ 0) : fSign (fdiv a b) = (fSign a != fSign b) := by
  rw [fdiv_finite ha hb h0, fSign_fPack _ _ (roundMag_lt _ _)]

/-- Settles O33: each operation delivers a rounded magnitude packed with the sign of the exact result; `fsub` is
the sum with the negated operand. -/
theorem roundsToNearestEven : Obligations.RoundsToNearestEven := by
  intro a b ha hb
  have hnb := fIsFinite_fNeg hb
  have hsub : fVal a - fVal b = fVal a + fVal (fNeg b) := by rw [fVal_fNeg, Int.sub_eq_add_neg]
  refine ⟨nearestEven_fSum _ ha hb, ?_, fun h0 => ⟨nearestEven_fdiv ha hb h0, fSign_fdiv_finite ha hb h0⟩,
    fSum_of_fVal_add_eq_zero _ ha hb, fun h => ?_⟩
  · rw [hsub]
    exact nearestEven_fSum _ ha hnb
  · rw [fsub, fSum_of_fVal_add_eq_zero _ ha hnb (hsub ▸ h), fSign_fNeg]

end Sys2Proof.Machine
end

section
/-!
The exact operations: the floor (R10) and the conversions between integers and binary64 (R11). Settles O34 and O35.
-/

namespace Sys2Proof.Machine

/-! ### The floor -/

theorem ffloor_of_finite {a : Binary64} (ha : fIsFinite a = true) (h0 : fMag a ≠ 0) :
    ffloor a = fOfInt (fVal a / fUnit) := by
  simp [ffloor, ha, h0]

theorem ffloor_eq_self {a : Binary64} (h : fIsFinite a = false ∨ fMag a = 0) : ffloor a = a := by
  rcases h with h | h <;> simp [ffloor, h]

/-- A finite magnitude of at least `2^53` is an integer: no bit of it lies below 1 (R10). -/
theorem fUnit_dvd_fMag {a : Binary64} (h : 2 ^ 53 * fUnit ≤ fMag a) : fUnit ∣ fMag a := by
  obtain ⟨u, -, hU⟩ := fUnit_pow
  obtain ⟨q, sh, hf, hbits⟩ := form_of_bits (lowBits a)
  rw [fMag_eq, hbits, magOf_form hf, hU] at h ⊢
  have hu : u < sh := by
    have hlt : 2 ^ 53 * 2 ^ u < 2 ^ 53 * 2 ^ sh := h.trans_lt (Nat.mul_lt_mul_of_pos_right hf.1 (by positivity))
    exact (Nat.pow_lt_pow_iff_right (by decide)).mp (Nat.lt_of_mul_lt_mul_left hlt)
  exact Dvd.dvd.mul_left (Nat.pow_dvd_pow 2 hu.le) q

/-- A finite value that is an integer, and not zero, is the conversion of that integer, however large. -/
theorem fOfInt_of_fVal_eq {a : Binary64} {n : Int} (ha : fIsFinite a = true) (h0 : fMag a ≠ 0)
    (h : fVal a = n * fUnit) : fOfInt n = a := by
  have hmag : fUnit * n.natAbs = magOf (lowBits a) * 1 := by
    rw [← fMag_eq, ← natAbs_fVal, h, Int.natAbs_mul, Int.natAbs_natCast, Nat.mul_comm, Nat.mul_one]
  have hsign : decide (n < 0) = fSign a := by
    rw [Bool.eq_iff_iff, decide_eq_true_iff, ← fVal_neg_iff h0, h, mul_fUnit_neg_iff]
  rw [fOfInt, hmag, roundMag_magOf _ 1 ((fIsFinite_iff a).mp ha).le Nat.one_pos, hsign, fPack_eta]

/-- The floor of a value below `2^53` in magnitude is at most `2^53` in magnitude, so the conversion is exact; a
larger value is an integer and the floor is the value itself. -/
theorem ffloor_spec {a : Binary64} (ha : fIsFinite a = true) :
    fIsFinite (ffloor a) = true ∧ fVal (ffloor a) = fVal a / fUnit * fUnit := by
  have hu : (0 : Int) < fUnit := by exact_mod_cast fUnit_pos
  by_cases h0 : fMag a = 0
  · rw [ffloor_eq_self (.inr h0), fVal_eq_zero_iff.mpr h0]
    exact ⟨ha, by simp⟩
  by_cases hbig : 2 ^ 53 * fUnit ≤ fMag a
  · have hdvd : (fUnit : Int) ∣ fVal a := by
      rw [← Int.natAbs_dvd_natAbs, natAbs_fVal, Int.natAbs_natCast]
      exact fUnit_dvd_fMag hbig
    have hval : fVal a = fVal a / fUnit * fUnit := (Int.ediv_mul_cancel hdvd).symm
    rw [ffloor_of_finite ha h0, fOfInt_of_fVal_eq ha h0 hval]
    exact ⟨ha, hval⟩
  · have hq : (fVal a / fUnit).natAbs ≤ 2 ^ 53 := by
      have habs : |fVal a| < 2 ^ 53 * fUnit := by
        rw [Int.abs_eq_natAbs, natAbs_fVal]
        exact_mod_cast Nat.not_le.mp hbig
      obtain ⟨hlo, hhi⟩ := abs_lt.mp habs
      have h1 : -2 ^ 53 ≤ fVal a / fUnit := (Int.le_ediv_iff_mul_le hu).mpr (by linarith)
      have h2 : fVal a / fUnit < 2 ^ 53 := Int.ediv_lt_of_lt_mul hu hhi
      omega
    rw [ffloor_of_finite ha h0]
    exact ⟨fIsFinite_fOfInt _ hq, fVal_fOfInt _ hq⟩

/-- Settles O34: the floor of every finite value is exact; the two examples of R10 are evaluated. -/
theorem floorIsExact : Obligations.FloorIsExact :=
  ⟨fun _ => ⟨ffloor_spec, ffloor_eq_self⟩, by decide +kernel, by decide +kernel⟩

/-! ### The conversions -/

/-- A natural number up to `2^53` is converted exactly, with the sign bit clear. -/
theorem fOfInt_natCast_exact {n : Nat} (hn : n ≤ 2 ^ 53) :
    fIsFinite (fOfInt n) = true ∧ fSign (fOfInt n) = false ∧ fVal (fOfInt n) = n * fUnit := by
  have hn' : (n : Int).natAbs ≤ 2 ^ 53 := by simpa using hn
  refine ⟨fIsFinite_fOfInt _ hn', ?_, fVal_fOfInt _ hn'⟩
  rw [fSign_fOfInt, decide_eq_false_iff_not]
  omega

theorem u8OfF_of_fVal_eq {a : Binary64} {n : Nat} (hn : n ≤ 255) (h : fVal a = n * fUnit) :
    (u8OfF a).toNat = n := by
  have hmag : fMag a = n * fUnit := by
    rw [← natAbs_fVal, h, Int.natAbs_mul, Int.natAbs_natCast, Int.natAbs_natCast]
  rw [u8OfF, hmag, Nat.mul_div_cancel _ fUnit_pos, BitVec.toNat_ofNat, Nat.mod_eq_of_lt (by omega)]

/-- Settles O35: bytes and counts are naturals up to `2^53`, and a byte is read back from its magnitude. -/
theorem conversionsAreExact : Obligations.ConversionsAreExact := by
  refine ⟨fun b => fOfInt_natCast_exact ?_, fun n _ hn => fOfInt_natCast_exact ?_, fun a n => u8OfF_of_fVal_eq⟩
  · have := b.isLt
    omega
  · omega

end Sys2Proof.Machine
end

section
/-!
The operands that are no finite value (R8, R9, U10): one rule for each branch of `fSum` and `fdiv`, and the pattern
of an infinity. Settles O40.
-/

namespace Sys2Proof.Machine

/-! ### Infinities -/

theorem not_nan_of_inf {x : Binary64} (h : fIsInf x = true) : fIsNaN x = false := by
  simp only [fIsInf, Bool.and_eq_true, beq_iff_eq] at h
  simp [fIsNaN, h.2]

/-- An infinity is determined by its sign. -/
theorem eq_fPack_of_inf {x : Binary64} (h : fIsInf x = true) : x = fPack (fSign x) infBits := by
  have hl := lowBits_lt x
  have hbits : lowBits x = infBits := by
    rw [fIsInf, ← fPack_eta x, fExp_fPack _ _ hl, fFrac_fPack _ _ hl] at h
    simp only [Bool.and_eq_true, beq_iff_eq] at h
    unfold infBits
    omega
  rw [← hbits, fPack_eta]

theorem fNeg_fPack (s : Bool) {m : Nat} (hm : m < 2 ^ 63) : fNeg (fPack s m) = fPack (!s) m := by
  rw [← fPack_eta (fNeg (fPack s m)), fSign_fNeg, lowBits_fNeg, fSign_fPack s m hm, lowBits_fPack s m hm]

/-- An infinity whose sign is changed where `s` says so. -/
theorem fPack_bne_infBits {a : Binary64} (ha : fIsInf a = true) (s : Bool) :
    fPack (fSign a != s) infBits = if s then fNeg a else a := by
  cases s
  · rw [Bool.bne_false, if_neg Bool.false_ne_true, ← eq_fPack_of_inf ha]
  · rw [Bool.bne_true, if_pos rfl, ← fNeg_fPack _ (by decide), ← eq_fPack_of_inf ha]

/-! ### Sums -/

theorem fSum_nan {a b : Binary64} (nan : Binary64) (h : fIsNaN a = true ∨ fIsNaN b = true) :
    fSum nan a b = nan := by
  simp [fSum, h]

/-- An infinity absorbs every term that is neither a NaN nor the opposite infinity. -/
theorem fSum_inf_left {a b : Binary64} (nan : Binary64) (ha : fIsInf a = true) (hb : fIsNaN b = false)
    (h : fIsInf b = true → fSign a = fSign b) : fSum nan a b = a := by
  have hopp : (fIsInf b && fSign a != fSign b) = false := by
    cases hi : fIsInf b
    · rfl
    · simp [h hi]
  simp [fSum, not_nan_of_inf ha, hb, ha, hopp]

theorem fSum_inf_opposite {a b : Binary64} (nan : Binary64) (ha : fIsInf a = true) (hb : fIsInf b = true)
    (h : fSign a ≠ fSign b) : fSum nan a b = nan := by
  simp [fSum, not_nan_of_inf ha, not_nan_of_inf hb, ha, hb, h]

theorem fSum_finite_inf {a b : Binary64} (nan : Binary64) (ha : fIsFinite a = true) (hb : fIsInf b = true) :
    fSum nan a b = b := by
  simp [fSum, not_nan_of_finite ha, not_inf_of_finite ha, not_nan_of_inf hb, hb]

/-! ### Quotients -/

theorem fdiv_nan {a b : Binary64} (h : fIsNaN a = true ∨ fIsNaN b = true) : fdiv a b = fNaN .div a b := by
  simp [fdiv, h]

theorem fdiv_inf_inf {a b : Binary64} (ha : fIsInf a = true) (hb : fIsInf b = true) :
    fdiv a b = fNaN .div a b := by
  simp [fdiv, not_nan_of_inf ha, not_nan_of_inf hb, ha, hb]

theorem fdiv_inf_finite {a b : Binary64} (ha : fIsInf a = true) (hb : fIsFinite b = true) :
    fdiv a b = fPack (fSign a != fSign b) infBits := by
  simp [fdiv, not_nan_of_inf ha, not_nan_of_finite hb, ha, not_inf_of_finite hb]

theorem fdiv_finite_inf {a b : Binary64} (ha : fIsFinite a = true) (hb : fIsInf b = true) :
    fdiv a b = fPack (fSign a != fSign b) 0 := by
  simp [fdiv, not_nan_of_finite ha, not_nan_of_inf hb, not_inf_of_finite ha, hb]

/-- A finite value over a zero: a NaN for 0/0, otherwise an infinity. -/
theorem fdiv_by_zero {a b : Binary64} (ha : fIsFinite a = true) (hb : fIsFinite b = true) (h0 : fMag b = 0) :
    fdiv a b = if fMag a = 0 then fNaN .div a b else fPack (fSign a != fSign b) infBits := by
  simp [fdiv, not_nan_of_finite ha, not_nan_of_finite hb, not_inf_of_finite ha, not_inf_of_finite hb, h0]

/-! ### The four classes of operands -/

/-- Every operation and every comparison with a NaN (R8, R9, U10). -/
theorem operations_nan {a b : Binary64} (h : fIsNaN a = true ∨ fIsNaN b = true) :
    fIsNaN (fadd a b) = true ∧ fIsNaN (fsub a b) = true ∧ fIsNaN (fdiv a b) = true ∧
      fge a b = false ∧ flt a b = false := by
  have hneg : fIsNaN a = true ∨ fIsNaN (fNeg b) = true := by rwa [fIsNaN_fNeg]
  rw [fadd, fSum_nan _ h, fsub, fSum_nan _ hneg, fdiv_nan h]
  refine ⟨fIsNaN_fNaN _ _ _, fIsNaN_fNaN _ _ _, fIsNaN_fNaN _ _ _, ?_, ?_⟩
  · rcases h with h | h <;> simp [fge, h]
  · rcases h with h | h <;> simp [flt, h]

theorem operations_inf_inf {a b : Binary64} (ha : fIsInf a = true) (hb : fIsInf b = true) :
    fIsNaN (fdiv a b) = true ∧
    (fSign a = fSign b → fadd a b = a ∧ fIsNaN (fsub a b) = true) ∧
    (fSign a ≠ fSign b → fIsNaN (fadd a b) = true ∧ fsub a b = a) := by
  have hnb : fIsInf (fNeg b) = true := by rwa [fIsInf_fNeg]
  refine ⟨?_, fun hs => ⟨?_, ?_⟩, fun hs => ⟨?_, ?_⟩⟩
  · rw [fdiv_inf_inf ha hb]
    exact fIsNaN_fNaN _ _ _
  · exact fSum_inf_left _ ha (not_nan_of_inf hb) fun _ => hs
  · rw [fsub, fSum_inf_opposite _ ha hnb (by rw [fSign_fNeg, hs]; exact Bool.not_ne_self _ |>.symm)]
    exact fIsNaN_fNaN _ _ _
  · rw [fadd, fSum_inf_opposite _ ha hb hs]
    exact fIsNaN_fNaN _ _ _
  · exact fSum_inf_left _ ha (not_nan_of_inf hnb) fun _ => by rw [fSign_fNeg]; exact Bool.eq_not_of_ne hs

theorem operations_inf_finite {a b : Binary64} (ha : fIsInf a = true) (hb : fIsFinite b = true) :
    fadd a b = a ∧ fadd b a = a ∧ fsub a b = a ∧ fsub b a = fNeg a ∧
      fdiv a b = (if fSign b then fNeg a else a) ∧
      fdiv b a = (if fSign b = fSign a then fZero else fNeg fZero) := by
  have hna : fIsInf (fNeg a) = true := by rwa [fIsInf_fNeg]
  have absorbs : ∀ (nan : Binary64) {c : Binary64}, fIsFinite c = true → fSum nan a c = a := fun nan _ hc =>
    fSum_inf_left nan ha (not_nan_of_finite hc) fun hinf => absurd hinf (by simp [not_inf_of_finite hc])
  refine ⟨absorbs _ hb, fSum_finite_inf _ hb ha, absorbs _ (fIsFinite_fNeg hb), fSum_finite_inf _ hb hna, ?_, ?_⟩
  · rw [fdiv_inf_finite ha hb, fPack_bne_infBits ha]
  · rw [fdiv_finite_inf hb ha, fPack_zero]
    by_cases hs : fSign b = fSign a <;> simp [hs]

theorem operations_zero_divisor {a b : Binary64} (ha : fIsFinite a = true) (hb : fIsFinite b = true)
    (h0 : fMag b = 0) :
    (fMag a = 0 → fIsNaN (fdiv a b) = true) ∧
    (fMag a ≠ 0 → fIsInf (fdiv a b) = true ∧ fSign (fdiv a b) = (fSign a != fSign b)) := by
  rw [fdiv_by_zero ha hb h0]
  refine ⟨fun hz => ?_, fun hz => ?_⟩
  · rw [if_pos hz]
    exact fIsNaN_fNaN _ _ _
  · rw [if_neg hz]
    exact ⟨fIsInf_fPack_infBits _, fSign_fPack _ _ (by decide)⟩

/-- Settles O40, class by class. -/
theorem specialOperands : Obligations.SpecialOperands :=
  ⟨fun _ _ => operations_nan, fun _ _ => operations_inf_inf, fun _ _ => operations_inf_finite,
    fun _ _ => operations_zero_divisor⟩

end Sys2Proof.Machine
end

section
/-!
A decoded command encodes back to its word (R75, R81): no bit of a command word is ignored.
-/

namespace Sys2Proof

/-- A slot number read from a field whose high bit is zero is the whole field. -/
theorem slotBits_hslotAt {w : Word} {lo : Nat} (h : (w.extractLsb' lo 4).toNat < 8) :
    slotBits (hslotAt w lo) = w.extractLsb' lo 4 := by
  rw [hslotAt_val, Nat.mod_eq_of_lt h, slotBits, BitVec.ofNat_toNat, BitVec.setWidth_eq]

/-- A slot number read from a field whose two high bits are zero is the whole field. -/
theorem slotBits_pslotAt {w : Word} {lo : Nat} (h : (w.extractLsb' lo 4).toNat < 4) :
    slotBits (pslotAt w lo) = w.extractLsb' lo 4 := by
  rw [pslotAt_val, Nat.mod_eq_of_lt h, slotBits, BitVec.ofNat_toNat, BitVec.setWidth_eq]

theorem commandWord_of_fields {w : Word} {op d a b : BitVec 4} {imm : BitVec 16} (hop : opField w = op)
    (hd : d = dField w) (ha : a = aField w) (hb : b = bField w) (himm : imm = immField w) :
    commandWord op d a b imm = w := by
  rw [← hop, hd, ha, hb, himm, commandWord_fields]

theorem encode_of_decode {w : Word} {i : Instr} (h : decode w = .ok i) : encode i = w := by
  unfold decode at h
  split at h
  next ht =>
    obtain ⟨hop, hd, ha, hb, himm⟩ := (create_test w).mp ht
    cases h
    exact commandWord_of_fields hop (slotBits_hslotAt hd) ha.symm hb.symm himm.symm
  split at h
  next ht =>
    obtain ⟨hop, hd, ha, hb, himm⟩ := (frompix_test w).mp ht
    cases h
    exact commandWord_of_fields hop (slotBits_hslotAt hd) (slotBits_pslotAt ha) hb.symm himm.symm
  split at h
  next ht =>
    obtain ⟨hop, hd, ha, hb, himm⟩ := (topix_test w).mp ht
    cases h
    exact commandWord_of_fields hop (slotBits_pslotAt hd) (slotBits_hslotAt ha) hb.symm himm.symm
  split at h
  next ht =>
    obtain ⟨hop, hd, ha, hb⟩ := (blur_test w).mp ht
    split at h
    · cases h
    · cases h
      exact commandWord_of_fields hop (slotBits_hslotAt hd) (slotBits_hslotAt ha) hb.symm rfl
  split at h
  next ht =>
    obtain ⟨hop, hd, ha, hb, himm⟩ := (diff_test w).mp ht
    cases h
    exact commandWord_of_fields hop (slotBits_pslotAt hd) (slotBits_hslotAt ha) (slotBits_hslotAt hb)
      himm.symm
  · cases h

end Sys2Proof
end

section
/-!
What an access on and off the platform's bus does, and what the host's writes leave alone; the
sources of a DIFF that is not refused.
-/

namespace Sys2Proof.Machine

theorem nonempty_of_sourcePair_ok {s : State} {a b : HSlot} {x : HBuf × HBuf} (h : sourcePair s a b = .ok x) :
    (s.buf a).w ≠ 0 ∧ (s.buf b).w ≠ 0 := by
  rcases sourcePair_cases s a b with ⟨-, he⟩ | ⟨-, -, -, he⟩ | ⟨ha, hb, -⟩
  · cases he.symm.trans h
  · cases he.symm.trans h
  · exact ⟨ha, hb⟩

@[simp] theorem perform_regWrite_zero (w : Word) (s : State) : perform (.regWrite 0 w) s = issue w s := rfl

theorem perform_regWrite_of_ne {n : Nat} (hn : n ≠ 0) (v : Word) (s : State) :
    perform (.regWrite n v) s = .next (s.regWrite n v) := if_neg hn

theorem regWrite_buf (s : State) (n : Nat) (v : Word) (i : HSlot) : (s.regWrite n v).buf i = s.buf i :=
  (regWrite_frame s n v).1 i

theorem pixWrite_buf (s : State) (n o : Nat) (b : Byte) (i : HSlot) : (s.pixWrite n o b).buf i = s.buf i := by
  rcases pixWrite_cases s n o b with ⟨p, -, -, hw⟩ | ⟨-, hw⟩ <;> rw [hw]
  exact setPB_buf s i p _

@[simp] theorem regWrite_maxPix (s : State) (n : Nat) (v : Word) : (s.regWrite n v).maxPix = s.maxPix := by
  obtain ⟨-, -, -, -, hcap, -⟩ := regWrite_frame s n v
  rw [State.maxPix, hcap, State.maxPix]

/-- An access on the platform's bus does what some access off the bus does, or is refused (R51, R54). -/
theorem perform_bus_cases {a : Access} (ha : a.onBus = true) (s : State) :
    (∃ b, b.onBus = false ∧ perform a s = perform b s) ∨ perform a s = .refused .busAccess := by
  cases a with
  | busRead addr len =>
    rcases performBus_cases Config.busMap addr len 0 s with ⟨n, -, hx, -⟩ | ⟨p, o, -, hx, -⟩ | ⟨-, hx, -⟩
    · exact .inl ⟨.regRead n, rfl, hx⟩
    · exact .inl ⟨.pixRead p o, rfl, hx⟩
    · exact .inr hx
  | busWrite addr len v =>
    rcases performBus_cases Config.busMap addr len v s with ⟨n, -, -, hx⟩ | ⟨p, o, -, -, hx⟩ | ⟨-, -, hx⟩
    · exact .inl ⟨.regWrite n v, rfl, hx⟩
    · exact .inl ⟨.pixWrite p o (v.setWidth 8), rfl, hx⟩
    · exact .inr hx
  | _ => cases ha

end Sys2Proof.Machine
end

section
/-!
The invariant of the machine: it holds right after reset, every access of the host keeps it, and where it holds every
access is answered, except that one on the platform's bus may be refused. Settles O23, O24 and O26.
-/

namespace Sys2Proof.Machine

/-! ### Reset -/

theorem empty_valid (cap : Nat) : HBuf.empty.valid cap := .inl ⟨rfl, rfl, rfl⟩

/-- Settles O23: every slot is empty, pixel memory lists no byte and the record is zero. -/
theorem resetMeetsInv : Obligations.ResetMeetsInv := fun cap epoch l =>
  { buffers := fun i => by rw [powerOn_buf]; exact empty_valid _
    memories := fun p => by rw [powerOn_slot]; exact fresh_valid _
    record := .inl ⟨rfl, rfl⟩ }

section
variable {s : State} (hs : s.Inv)
include hs

/-! ### Each update of the state keeps the invariant -/

theorem takeAccess_inv (l : List Access) : (s.takeAccess l).Inv := ⟨hs.buffers, hs.memories, hs.record⟩

/-- An answer to the host is no part of the invariant. -/
theorem setReply_inv (r : Option Reply) : State.Inv { s with reply := r } := ⟨hs.buffers, hs.memories, hs.record⟩

theorem raise_inv (e : CmdError) (w : Word) : (raise e w s).Inv := ⟨hs.buffers, hs.memories, .inr ⟨e, rfl⟩⟩

theorem setHB_inv (d : HSlot) {b : HBuf} (hb : b.valid s.maxPix) : (s.setHB d b).Inv where
  buffers i := by
    rw [setHB_buf, setHB_maxPix]
    split
    · exact hb
    · exact hs.buffers i
  memories := hs.memories
  record := hs.record

theorem setPB_inv (d : PSlot) {x : PixSlot} (hx : Memory.valid s.maxPix x.mem) : (s.setPB d x).Inv where
  buffers := hs.buffers
  memories p := by
    rw [setPB_slot, setPB_maxPix]
    split
    · exact hx
    · exact hs.memories p
  record := hs.record

theorem setImage_inv (d : PSlot) (w h : Nat) {bytes : List Byte} (hl : bytes.length ≤ 3 * s.maxPix) :
    (s.setImage d w h bytes).Inv :=
  setPB_inv hs d (memWriteImage_valid (hs.memories d) hl)

theorem regWrite_inv (n : Nat) (v : Word) : (s.regWrite n v).Inv := by
  obtain ⟨hbuf, hmem, hstatus, hfaultcmd, -⟩ := regWrite_frame s n v
  have hmax := regWrite_maxPix s n v
  refine ⟨fun i => ?_, fun p => ?_, ?_⟩
  · rw [hbuf, hmax]; exact hs.buffers i
  · rw [hmem, hmax]; exact hs.memories p
  · rw [State.statusValid, hstatus, hfaultcmd]; exact hs.record

theorem pixWrite_inv (n o : Nat) (b : Byte) : (s.pixWrite n o b).Inv := by
  rcases pixWrite_cases s n o b with ⟨p, -, ho, hw⟩ | ⟨-, hw⟩ <;> rw [hw]
  · exact setPB_inv hs p (memWrite_valid b (hs.memories p) ho)
  · exact hs

/-! ### Each command completes and keeps the invariant -/

/-- A source slot that is not empty passes the bounds check (R23, R181). -/
theorem source_inBounds {a : HSlot} (ha : (s.buf a).w ≠ 0) : (s.buf a).inBounds s.maxPix = true :=
  inBounds_of_valid (hs.buffers a) ha

/-- A non-empty slot has no more values than a pixel region has bytes. -/
theorem source_length_le {a : HSlot} (ha : (s.buf a).w ≠ 0) : (s.buf a).px.length ≤ 3 * s.maxPix := by
  obtain ⟨hlen, hcap⟩ := inBounds_iff.mp (source_inBounds hs ha)
  omega

theorem execCreate_keeps_inv (d : HSlot) : ∃ t, execCreate d s = .next t ∧ t.Inv := by
  rcases execCreate_cases d s with ⟨e, -, hx⟩ | ⟨W, H, hd, hx⟩
  · exact ⟨_, hx, raise_inv hs _ _⟩
  · obtain ⟨hW, hH, hcap⟩ := imageDims_ok_nat hd
    exact ⟨_, hx, setHB_inv hs d (.inr ⟨hW, hH, hcap, List.length_replicate⟩)⟩

theorem execFrompix_keeps_inv (d : HSlot) (a : PSlot) : ∃ t, execFrompix d a s = .next t ∧ t.Inv := by
  rcases execFrompix_cases d a s with ⟨e, -, hx⟩ | ⟨W, H, hd, hx⟩
  · exact ⟨_, hx, raise_inv hs _ _⟩
  · obtain ⟨hW, hH, hcap⟩ := imageDims_ok_nat hd
    exact ⟨_, hx, setHB_inv hs d (.inr ⟨hW, hH, hcap, by simp⟩)⟩

theorem execTopix_keeps_inv (d : PSlot) (a : HSlot) : ∃ t, execTopix d a s = .next t ∧ t.Inv := by
  rcases execTopix_cases d a s with ⟨-, hx⟩ | ⟨ha, hb, -⟩ | ⟨ha, -, hx⟩
  · exact ⟨_, hx, raise_inv hs _ _⟩
  · simp [source_inBounds hs ha] at hb
  · exact ⟨_, hx, setImage_inv hs d _ _ (by simpa using source_length_le hs ha)⟩

theorem execBlur_keeps_inv (d a : HSlot) (r : BitVec 16) : ∃ t, execBlur d a r s = .next t ∧ t.Inv := by
  rcases execBlur_cases d a r s with ⟨-, hx⟩ | ⟨-, -, hx⟩ | ⟨-, ha, hb, -⟩ | ⟨-, ha, -, hx⟩
  · exact ⟨_, hx, raise_inv hs _ _⟩
  · exact ⟨_, hx, raise_inv hs _ _⟩
  · simp [source_inBounds hs ha] at hb
  · exact ⟨_, hx, setHB_inv hs d (boxBlur_valid _ (hs.buffers a) ha)⟩

theorem execDiff_keeps_inv (d : PSlot) (a b : HSlot) : ∃ t, execDiff d a b s = .next t ∧ t.Inv := by
  rcases execDiff_cases d a b s with ⟨e, -, -, hx⟩ | ⟨hp, hbounds, -⟩ | ⟨hp, -, hx⟩
  · exact ⟨_, hx, raise_inv hs _ _⟩
  · obtain ⟨ha, hb⟩ := nonempty_of_sourcePair_ok hp
    simp [source_inBounds hs ha, source_inBounds hs hb] at hbounds
  · obtain ⟨ha, -⟩ := nonempty_of_sourcePair_ok hp
    have hlen := source_length_le hs ha
    exact ⟨_, hx, setImage_inv hs d _ _ (by rw [List.length_zipWith]; omega)⟩

theorem exec_keeps_inv (i : Instr) : ∃ t, exec i s = .next t ∧ t.Inv := by
  cases i with
  | create d => exact execCreate_keeps_inv hs d
  | frompix d a => exact execFrompix_keeps_inv hs d a
  | topix d a => exact execTopix_keeps_inv hs d a
  | blur d a r => exact execBlur_keeps_inv hs d a r
  | diff d a b => exact execDiff_keeps_inv hs d a b

/-! ### Each access is answered and keeps the invariant -/

theorem issue_keeps_inv (w : Word) : ∃ t, issue w s = .next t ∧ t.Inv := by
  rcases issue_cases w s with ⟨-, hx⟩ | ⟨-, -, hx⟩ | ⟨-, i, -, hx⟩
  · exact ⟨s, hx, hs⟩
  · exact ⟨_, hx, raise_inv hs _ _⟩
  · rw [hx]; exact exec_keeps_inv hs i

/-- An access that is not on the platform's bus is answered. -/
theorem perform_keeps_inv {a : Access} (ha : a.onBus = false) : ∃ t, perform a s = .next t ∧ t.Inv := by
  cases a with
  | regRead n => exact ⟨_, rfl, setReply_inv hs _⟩
  | regWrite n v =>
    by_cases hn : n = 0
    · subst hn; rw [perform_regWrite_zero]; exact issue_keeps_inv hs v
    · exact ⟨_, perform_regWrite_of_ne hn v s, regWrite_inv hs n v⟩
  | pixRead p o => exact ⟨_, rfl, setReply_inv hs _⟩
  | pixWrite p o b => exact ⟨_, rfl, pixWrite_inv hs p o b⟩
  | reset => exact ⟨_, rfl, resetMeetsInv _ _ _⟩
  | busRead addr len => cases ha
  | busWrite addr len v => cases ha

/-- A step of a state that meets the invariant leads to one that does, or refuses an access on the bus. -/
theorem step_keeps_inv_or_refuses : (∃ t, step s = .next t ∧ t.Inv) ∨
    ∃ a rest, s.todo = a :: rest ∧ a.onBus = true ∧ step s = .refused .busAccess := by
  cases htodo : s.todo with
  | nil => exact .inl ⟨s, step_nil htodo, hs⟩
  | cons a rest =>
    rw [step_cons htodo]
    have hs' := takeAccess_inv hs rest
    cases hbus : a.onBus with
    | false => exact .inl (perform_keeps_inv hs' hbus)
    | true =>
      rcases perform_bus_cases hbus (s.takeAccess rest) with ⟨b, hb, hx⟩ | hx <;> rw [hx]
      · exact .inl (perform_keeps_inv hs' hb)
      · exact .inr ⟨a, rest, rfl, hbus, rfl⟩

end

/-- Settles O24: the one next state a step answers is the one that meets the invariant. -/
theorem stepKeepsInv : Obligations.StepKeepsInv := by
  intro s t hs ht
  rcases step_keeps_inv_or_refuses hs with ⟨u, hu, hinv⟩ | ⟨_, _, -, -, hrefused⟩
  · obtain rfl : u = t := Host.Outcome.next.inj (hu.symm.trans ht)
    exact hinv
  · cases hrefused.symm.trans ht

/-- Settles O26. -/
theorem stepAnswers : Obligations.StepAnswers := fun _ hs =>
  (step_keeps_inv_or_refuses hs).imp_left fun ⟨t, ht, _⟩ => ⟨t, ht⟩

end Sys2Proof.Machine
end

section
/-!
The register space (R29 to R37, R63): what each number names, what a read of it answers after a write to the same and
to another register. Settles O10 and O11.
-/

namespace Sys2Proof.Machine

/-! ### Numbers and names -/

/-- Every register is reached under its number. -/
@[simp] theorem regOfNumber_regNumber (r : RegName) : regOfNumber (regNumber r) = some r := by
  cases r with
  | pbw p => revert p; decide
  | pbh p => revert p; decide
  | hbw i => revert i; decide
  | hbh i => revert i; decide
  | _ => rfl

theorem regNumber_lt (r : RegName) : regNumber r < 32 := by
  cases r <;> simp only [regNumber] <;> omega

/-- The numbers 5, 6, 7 and those above 31 name no register (R32, R37). -/
theorem regOfNumber_eq_none {n : Nat} (h : n = 5 ∨ n = 6 ∨ n = 7 ∨ 31 < n) : regOfNumber n = none := by
  rcases h with rfl | rfl | rfl | h
  · rfl
  · rfl
  · rfl
  · cases hr : regOfNumber n with
    | none => rfl
    | some r =>
      have hn := regNumber_of_regOfNumber hr
      have hlt := regNumber_lt r
      omega

/-- The registers a host write stores to (R32). -/
def writable : RegName → Bool
  | .width => true
  | .height => true
  | .pbw _ => true
  | .pbh _ => true
  | .cmd => false
  | .status => false
  | .faultcmd => false
  | .hbw _ => false
  | .hbh _ => false

theorem writable_iff (r : RegName) :
    writable r = true ↔ regNumber r = 2 ∨ regNumber r = 3 ∨ (8 ≤ regNumber r ∧ regNumber r ≤ 15) := by
  cases r <;> simp [writable, regNumber] <;> omega

/-! ### Reads -/

@[simp] theorem regRead_regNumber (s : State) (r : RegName) : s.regRead (regNumber r) = s.readReg r := by
  simp [State.regRead]

theorem regRead_of_some {n : Nat} {r : RegName} (h : regOfNumber n = some r) (s : State) :
    s.regRead n = s.readReg r := by
  simp [State.regRead, h]

theorem regRead_of_none {n : Nat} (h : regOfNumber n = none) (s : State) : s.regRead n = 0 := by
  simp [State.regRead, h]

theorem regRead_pbw (s : State) (p : PSlot) : s.regRead (8 + 2 * p) = (s.slot p).w := regRead_regNumber s (.pbw p)

theorem regRead_pbh (s : State) (p : PSlot) : s.regRead (9 + 2 * p) = (s.slot p).h := regRead_regNumber s (.pbh p)

theorem regRead_hbw (s : State) (i : HSlot) : s.regRead (16 + 2 * i) = BitVec.ofNat 32 (s.buf i).w :=
  regRead_regNumber s (.hbw i)

theorem regRead_hbh (s : State) (i : HSlot) : s.regRead (17 + 2 * i) = BitVec.ofNat 32 (s.buf i).h :=
  regRead_regNumber s (.hbh i)

/-- Only the two fields of `STATUS` are read (R29). -/
theorem statusRead_fields (w : Word) : faultFlag (statusRead w) = faultFlag w ∧
    errField (statusRead w) = errField w ∧ statusRead w &&& 0xFFFFFF8E#32 = 0 := by
  refine ⟨?_, ?_, ?_⟩
  · simp [faultFlag, statusRead]
  · apply BitVec.eq_of_getLsbD_eq
    intro i hi
    interval_cases i <;> simp [errField, statusRead]
  · rw [statusRead, BitVec.and_assoc]
    exact BitVec.and_zero

/-- The dimensions of a valid slot fit into a register (R22, R36). -/
theorem dims_lt_of_valid {s : State} {b : HBuf} (hb : b.valid s.maxPix) : b.w < 2 ^ 32 ∧ b.h < 2 ^ 32 := by
  have hlimit : s.maxPix ≤ 2 ^ 30 := maxPix_le s
  rcases hb with ⟨hw, hh, -⟩ | ⟨hw, hh, hcap, -⟩
  · omega
  · have hw' : b.w ≤ b.w * b.h := Nat.le_mul_of_pos_right _ hh
    have hh' : b.h ≤ b.w * b.h := Nat.le_mul_of_pos_left _ hw
    omega

/-- Settles O10: each number names the register that the statement reads. -/
theorem registerReads : Obligations.RegisterReads := by
  intro s
  refine ⟨rfl, statusRead_fields s.status, rfl, rfl, rfl, fun n hn => regRead_of_none (regOfNumber_eq_none hn) s,
    fun p => ⟨regRead_pbw s p, regRead_pbh s p⟩, fun hs i => ?_⟩
  obtain ⟨hw, hh⟩ := dims_lt_of_valid (hs.buffers i)
  rw [regRead_hbw, regRead_hbh]
  exact ⟨Nat.mod_eq_of_lt hw, Nat.mod_eq_of_lt hh⟩

/-! ### Writes -/

theorem writeReg_of_not_writable {r : RegName} (h : writable r = false) (s : State) (v : Word) :
    s.writeReg r v = s := by
  cases r with
  | cmd | status | faultcmd | hbw | hbh => rfl
  | _ => cases h

theorem readReg_writeReg_self {r : RegName} (h : writable r = true) (s : State) (v : Word) :
    (s.writeReg r v).readReg r = v := by
  cases r with
  | width => rfl
  | height => rfl
  | pbw p => exact congrArg PixSlot.w (setPB_slot_self s p _)
  | pbh p => exact congrArg PixSlot.h (setPB_slot_self s p _)
  | _ => cases h

/-- A write to `PBW[p]` leaves every `PBH` alone. -/
theorem writeReg_pbw_slot_h (s : State) (p q : PSlot) (v : Word) :
    ((s.writeReg (.pbw p) v).slot q).h = (s.slot q).h := by
  by_cases hq : q = p <;> simp [State.writeReg, setPB_slot, hq]

/-- A write to `PBH[p]` leaves every `PBW` alone. -/
theorem writeReg_pbh_slot_w (s : State) (p q : PSlot) (v : Word) :
    ((s.writeReg (.pbh p) v).slot q).w = (s.slot q).w := by
  by_cases hq : q = p <;> simp [State.writeReg, setPB_slot, hq]

theorem readReg_writeReg_ne {r q : RegName} (h : q ≠ r) (s : State) (v : Word) :
    (s.writeReg r v).readReg q = s.readReg q := by
  cases r with
  | width =>
    cases q with
    | width => exact absurd rfl h
    | _ => rfl
  | height =>
    cases q with
    | height => exact absurd rfl h
    | _ => rfl
  | pbw p =>
    cases q with
    | pbw p' => exact congrArg PixSlot.w (setPB_slot_ne s p p' _ fun hp => h (hp ▸ rfl))
    | pbh p' => exact writeReg_pbw_slot_h s p p' v
    | _ => rfl
  | pbh p =>
    cases q with
    | pbw p' => exact writeReg_pbh_slot_w s p p' v
    | pbh p' => exact congrArg PixSlot.h (setPB_slot_ne s p p' _ fun hp => h (hp ▸ rfl))
    | _ => rfl
  | _ => rfl

/-- A write by number is the write of the register named, and is ignored where none is (R63). -/
theorem regWrite_of_some {n : Nat} {r : RegName} (h : regOfNumber n = some r) (s : State) (v : Word) :
    s.regWrite n v = s.writeReg r v := by
  simp [State.regWrite, h]

theorem regWrite_of_none {n : Nat} (h : regOfNumber n = none) (s : State) (v : Word) : s.regWrite n v = s := by
  simp [State.regWrite, h]

theorem regRead_regWrite_of_writable {n : Nat} {r : RegName} (hr : regOfNumber n = some r) (hw : writable r = true)
    (s : State) (v : Word) : (s.regWrite n v).regRead n = v := by
  rw [regRead_of_some hr, regWrite_of_some hr, readReg_writeReg_self hw]

/-- A write under one number changes what no other number reads as. -/
theorem regRead_regWrite_ne {n m : Nat} (h : m ≠ n) (s : State) (v : Word) :
    (s.regWrite n v).regRead m = s.regRead m := by
  cases hn : regOfNumber n with
  | none => rw [regWrite_of_none hn]
  | some r =>
    cases hm : regOfNumber m with
    | none => rw [regRead_of_none hm, regRead_of_none hm]
    | some q =>
      have hqr : q ≠ r := fun e => h (by
        rw [← regNumber_of_regOfNumber hm, ← regNumber_of_regOfNumber hn, e])
      rw [regRead_of_some hm, regRead_of_some hm, regWrite_of_some hn, readReg_writeReg_ne hqr]

/-- The numbers of the writable registers (R32). -/
theorem writable_of_number {n : Nat} (h : n = 2 ∨ n = 3 ∨ (8 ≤ n ∧ n ≤ 15)) :
    ∃ r, regOfNumber n = some r ∧ writable r = true := by
  rcases h with rfl | rfl | ⟨hlow, hhigh⟩
  · exact ⟨.width, rfl, rfl⟩
  · exact ⟨.height, rfl, rfl⟩
  · interval_cases n <;> exact ⟨_, rfl, rfl⟩

theorem regWrite_ignored {n : Nat} (h : ¬(n = 2 ∨ n = 3 ∨ (8 ≤ n ∧ n ≤ 15))) (s : State) (v : Word) :
    s.regWrite n v = s := by
  cases hr : regOfNumber n with
  | none => exact regWrite_of_none hr s v
  | some r =>
    rw [← regNumber_of_regOfNumber hr, ← writable_iff, Bool.not_eq_true] at h
    rw [regWrite_of_some hr, writeReg_of_not_writable h]

theorem regWrite_pixByte (s : State) (n : Nat) (v : Word) (p : PSlot) (o : Nat) :
    (s.regWrite n v).pixByte p o = s.pixByte p o := by
  obtain ⟨-, hmem, -, -, -, hepoch, -⟩ := regWrite_frame s n v
  simp only [State.pixByte, hmem, hepoch]

/-- Settles O11, from the write under its own number, under another number, and its frame. -/
theorem registerWrites : Obligations.RegisterWrites := by
  intro s n v hn
  obtain ⟨-, -, hstatus, hfaultcmd, -, -, htodo, -⟩ := regWrite_frame s n v
  refine ⟨s.regWrite n v, perform_regWrite_of_ne hn v s, ?_, regWrite_buf s n v, regWrite_pixByte s n v, hstatus, hfaultcmd,
    regWrite_maxPix s n v, htodo⟩
  split
  next h =>
    obtain ⟨r, hr, hw⟩ := writable_of_number h
    exact ⟨regRead_regWrite_of_writable hr hw s v, fun m hm => regRead_regWrite_ne hm s v⟩
  next h => exact regWrite_ignored h s v

end Sys2Proof.Machine
end

section
/-!
The pixel memory space (R25, R51, R63): a read after a write to the same and to another place, and what is outside the
region. Settles O12.
-/

namespace Sys2Proof.Machine

@[simp] theorem pixRead_slot (s : State) (p : PSlot) (o : Nat) :
    s.pixRead p o = if o < 3 * s.maxPix then s.pixByte p o else 0 := by
  simp [State.pixRead, pslotOf]

/-- A place that does not exist reads as 0 (R63). -/
theorem pixRead_outside {s : State} {n o : Nat} (h : ¬(n < 4 ∧ o < 3 * s.maxPix)) : s.pixRead n o = 0 := by
  by_cases hn : n < 4
  · exact (pixRead_slot s ⟨n, hn⟩ o).trans (if_neg fun ho => h ⟨hn, ho⟩)
  · simp [State.pixRead, pslotOf, hn]

/-- The write of one byte to `PBMEM[p]`, which `State.pixWrite` makes inside the region. -/
theorem pixByte_setPB_memWrite (s : State) (p q : PSlot) (o k : Nat) (b : Byte) :
    (s.setPB p { s.slot p with mem := memWrite (s.slot p).mem o b }).pixByte q k =
      if q = p ∧ k = o then b else s.pixByte q k := by
  by_cases hq : q = p
  · subst hq
    by_cases hk : k = o <;> simp [State.pixByte, memByte_memWrite, hk]
  · simp [State.pixByte, setPB_slot_ne s p q _ hq, hq]

/-- Pixel memory is no part of any register. -/
theorem regRead_setPB_mem (s : State) (p : PSlot) (m : Memory) (n : Nat) :
    (s.setPB p { s.slot p with mem := m }).regRead n = s.regRead n := by
  cases hn : regOfNumber n with
  | none => rw [regRead_of_none hn, regRead_of_none hn]
  | some r =>
    rw [regRead_of_some hn, regRead_of_some hn]
    cases r with
    | pbw q => by_cases hq : q = p <;> simp [State.readReg, setPB_slot, hq]
    | pbh q => by_cases hq : q = p <;> simp [State.readReg, setPB_slot, hq]
    | _ => rfl

/-- After the write of one byte every other place, of whatever slot number, reads as before. -/
theorem pixRead_setPB_memWrite_ne (s : State) (p : PSlot) (o : Nat) (b : Byte) {n k : Nat}
    (h : n ≠ p ∨ k ≠ o) :
    (s.setPB p { s.slot p with mem := memWrite (s.slot p).mem o b }).pixRead n k = s.pixRead n k := by
  by_cases hn : n < 4
  · have hne : ¬((⟨n, hn⟩ : PSlot) = p ∧ k = o) := fun ⟨hp, hk⟩ => h.elim (· (congrArg Fin.val hp)) (· hk)
    have hread := fun u : State => pixRead_slot u ⟨n, hn⟩ k
    rw [hread, hread, pixByte_setPB_memWrite, if_neg hne, setPB_maxPix]
  · rw [pixRead_outside fun h => hn h.1, pixRead_outside fun h => hn h.1]

/-- Settles O12: inside the region one byte of pixel memory is written, outside it nothing is. -/
theorem pixelAccess : Obligations.PixelAccess := by
  intro s n o b
  refine ⟨s.pixWrite n o b, rfl, ?_⟩
  rcases pixWrite_cases s n o b with ⟨p, rfl, ho, hw⟩ | ⟨hout, hw⟩ <;> rw [hw]
  · rw [if_pos ⟨p.isLt, ho⟩]
    refine ⟨?_, fun _ _ h => pixRead_setPB_memWrite_ne s p o b h, fun m => regRead_setPB_mem s p _ m,
      fun _ => rfl, rfl, rfl⟩
    rw [pixRead_slot, setPB_maxPix, if_pos ho, pixByte_setPB_memWrite, if_pos ⟨rfl, rfl⟩]
  · rw [if_neg hout]
    exact ⟨rfl, pixRead_outside hout⟩

end Sys2Proof.Machine
end

section
/-!
The state of reset (R38) and the errors the commands raise where the dimension registers are not positive and where a
source slot is empty (R161, R165). Settles O8.
-/

namespace Sys2Proof.Machine

/-- Fault entry writes the record of an error and nothing else (R168). -/
theorem raise_faultEntered (e : CmdError) (w : Word) (s : State) : FaultEntered e w s (raise e w s) where
  fault := faultFlag_faultStatus _
  code := errField_faultStatus _
  rest := statusRead_faultStatus _
  faultcmd := rfl
  buffers _ := rfl
  pbw _ := rfl
  pbh _ := rfl
  bytes _ _ := rfl
  width := rfl
  height := rfl
  capLess1 := rfl
  epoch := rfl
  todo := rfl
  reply := rfl

theorem imageDims_of_not_pos {cap : Nat} {w h : Word} (hd : w.toInt ≤ 0 ∨ h.toInt ≤ 0) :
    imageDims cap w h = .error .invalidDimension :=
  imageDims_error_iff.mpr (.inl ⟨rfl, hd⟩)

section
variable {s : State}

theorem exec_create_of_not_pos (d : HSlot) (h : s.width.toInt ≤ 0 ∨ s.height.toInt ≤ 0) :
    exec (.create d) s = .next (raise .invalidDimension (encode (.create d)) s) := by
  simp [exec, execCreate, imageDims_of_not_pos h]

theorem exec_frompix_of_not_pos (d : HSlot) {a : PSlot} (h : (s.slot a).w.toInt ≤ 0 ∨ (s.slot a).h.toInt ≤ 0) :
    exec (.frompix d a) s = .next (raise .invalidDimension (encode (.frompix d a)) s) := by
  simp [exec, execFrompix, imageDims_of_not_pos h]

theorem sourceBuffer_of_empty {a : HSlot} (h : (s.buf a).w = 0) : sourceBuffer s a = .error .emptyBuffer :=
  if_pos h

theorem exec_topix_of_empty (d : PSlot) {a : HSlot} (h : (s.buf a).w = 0) :
    exec (.topix d a) s = .next (raise .emptyBuffer (encode (.topix d a)) s) := by
  simp [exec, execTopix, sourceBuffer_of_empty h]

theorem exec_blur_of_empty {d a : HSlot} (r : BitVec 16) (hd : d ≠ a) (h : (s.buf a).w = 0) :
    exec (.blur d a r) s = .next (raise .emptyBuffer (encode (.blur d a r)) s) := by
  simp [exec, execBlur, hd, sourceBuffer_of_empty h]

theorem exec_diff_of_empty (d : PSlot) {a b : HSlot} (h : (s.buf a).w = 0 ∨ (s.buf b).w = 0) :
    exec (.diff d a b) s = .next (raise .emptyBuffer (encode (.diff d a b)) s) := by
  simp [exec, execDiff, sourcePair, h]

end

/-- Settles O8: reset leaves no positive dimension and no slot that is not empty. -/
theorem resetState : Obligations.ResetState := by
  intro cap epoch l s
  have hbuf (i : HSlot) : s.buf i = HBuf.empty := powerOn_buf cap epoch l i
  have hslot (p : PSlot) : s.slot p = PixSlot.fresh := powerOn_slot cap epoch l p
  have hempty (i : HSlot) : (s.buf i).w = 0 := by rw [hbuf]; rfl
  have hread (i : HSlot) : s.regRead (16 + 2 * i) = 0 ∧ s.regRead (17 + 2 * i) = 0 := by
    rw [regRead_hbw, regRead_hbh, hbuf]
    exact ⟨rfl, rfl⟩
  refine ⟨fun i => ⟨hempty i, by rw [hbuf]; rfl, hread i⟩, rfl, rfl, rfl, rfl,
    fun p => by rw [hslot]; exact ⟨rfl, rfl⟩, powerOn_pixByte cap epoch l, fun d => ?_, fun d p => ?_,
    fun p a => ?_, fun d a r hd => ?_, fun p a b => ?_⟩
  · exact ⟨_, exec_create_of_not_pos d (.inl (by rw [powerOn_width]; decide)), raise_faultEntered _ _ _⟩
  · exact ⟨_, exec_frompix_of_not_pos d (.inl (by rw [hslot]; decide)), raise_faultEntered _ _ _⟩
  · exact ⟨_, exec_topix_of_empty p (hempty a), raise_faultEntered _ _ _⟩
  · exact ⟨_, exec_blur_of_empty r hd (hempty a), raise_faultEntered _ _ _⟩
  · exact ⟨_, exec_diff_of_empty p (.inl (hempty a)), raise_faultEntered _ _ _⟩

end Sys2Proof.Machine
end

section
/-!
The writers of every piece of state (R39): what one access of the host can do to the state, said once as `Effect`, and
read off for each piece. Settles O15.
-/

namespace Sys2Proof.Machine

/-! ### What the state updates leave of the registers -/

theorem readReg_setReply (s : State) (o : Option Reply) (r : RegName) :
    State.readReg { s with reply := o } r = s.readReg r := by
  cases r <;> rfl

/-- Fault entry writes read-only registers alone. -/
theorem readReg_raise {r : RegName} (hr : writable r = true) (e : CmdError) (w : Word) (s : State) :
    (raise e w s).readReg r = s.readReg r := by
  cases r with
  | width | height | pbw | pbh => rfl
  | _ => cases hr

/-- The write of a high-precision slot shows in read-only registers alone. -/
theorem readReg_setHB {r : RegName} (hr : writable r = true) (s : State) (d : HSlot) (b : HBuf) :
    (s.setHB d b).readReg r = s.readReg r := by
  cases r with
  | width | height | pbw | pbh => rfl
  | _ => cases hr

/-- An image written to `PB[d]` shows in `PBW[d]` and `PBH[d]` alone. -/
theorem readReg_setImage_of_ne {r : RegName} {d : PSlot} (hr : ¬(r = .pbw d ∨ r = .pbh d)) (s : State) (W H : Nat)
    (bytes : List Byte) : (s.setImage d W H bytes).readReg r = s.readReg r := by
  cases r with
  | pbw p => exact congrArg PixSlot.w (setImage_slot_ne s d p W H bytes fun hp => hr (.inl (hp ▸ rfl)))
  | pbh p => exact congrArg PixSlot.h (setImage_slot_ne s d p W H bytes fun hp => hr (.inr (hp ▸ rfl)))
  | _ => rfl

/-! ### The effect of an access -/

/-- What an access that is neither a reset nor on the bus can do to the state: nothing but an answer, one write of the
host, the entry of a fault, or the write of a command's destination. -/
inductive Effect (s : State) : Access → State → Prop where
  | ignored (a : Access) : Effect s a s
  | answered (a : Access) (r : Option Reply) : Effect s a { s with reply := r }
  | regWritten (n : Nat) (v : Word) : Effect s (.regWrite n v) (s.regWrite n v)
  | pixWritten (p : PSlot) (o : Nat) (b : Byte) :
    Effect s (.pixWrite p o b) (s.setPB p { s.slot p with mem := memWrite (s.slot p).mem o b })
  | raised (w : Word) (e : CmdError) (hf : faultFlag s.status = false) : Effect s (.regWrite 0 w) (raise e w s)
  | filled (w : Word) (c : Instr) (hc : decode w = .ok c) (d : HSlot) (hd : hpDest c = some d) (b : HBuf) :
    Effect s (.regWrite 0 w) (s.setHB d b)
  | painted (w : Word) (c : Instr) (hc : decode w = .ok c) (d : PSlot) (hd : pixDest c = some d) (W H : Nat)
    (bytes : List Byte) : Effect s (.regWrite 0 w) (s.setImage d W H bytes)

/-- The issue of a command records an error under the word issued, or writes the command's destination. -/
theorem issue_effect {w : Word} {s t : State} (h : issue w s = .next t) : Effect s (.regWrite 0 w) t := by
  rcases issue_cases w s with ⟨-, hx⟩ | ⟨hf, -, hx⟩ | ⟨hf, c, hc, hx⟩
  · cases hx.symm.trans h
    exact .ignored _
  · cases hx.symm.trans h
    exact .raised w _ hf
  · rcases exec_next_cases (hx.symm.trans h) with ⟨e, rfl, -⟩ | ⟨d, b, hd, rfl⟩ | ⟨d, W, H, bytes, hd, rfl⟩
    · rw [encode_of_decode hc]
      exact .raised w e hf
    · exact .filled w c hc d hd b
    · exact .painted w c hc d hd W H bytes

theorem perform_effect {a : Access} {s t : State} (hbus : a.onBus = false) (hreset : a ≠ .reset)
    (h : perform a s = .next t) : Effect s a t := by
  cases a with
  | regRead n => cases h; exact .answered _ _
  | regWrite n v =>
    by_cases hn : n = 0
    · subst hn
      exact issue_effect h
    · cases (perform_regWrite_of_ne hn v s).symm.trans h
      exact .regWritten n v
  | pixRead p o => cases h; exact .answered _ _
  | pixWrite n o b =>
    cases h
    rcases pixWrite_cases s n o b with ⟨p, rfl, -, hw⟩ | ⟨-, hw⟩ <;> rw [hw]
    · exact .pixWritten p o b
    · exact .ignored _
  | reset => exact absurd rfl hreset
  | busRead addr len => cases hbus
  | busWrite addr len v => cases hbus

/-! ### The writers of each piece of state -/

section
variable {s t : State} {a : Access} (h : Effect s a t)
include h

theorem Effect.buf_writer {i : HSlot} (hi : t.buf i ≠ s.buf i) :
    ∃ w c, a = .regWrite 0 w ∧ decode w = .ok c ∧ hpDest c = some i := by
  cases h with
  | regWritten n v => exact absurd (regWrite_buf s n v i) hi
  | filled w c hc d hd b =>
    by_cases hid : i = d
    · exact ⟨w, c, rfl, hc, hid ▸ hd⟩
    · exact absurd (setHB_buf_ne s d i b hid) hi
  | _ => exact absurd rfl hi

/-- A register that a host write stores to changes by that write, or as a descriptor of the image a command writes. -/
theorem Effect.readReg_writer {r : RegName} (hr : writable r = true) (hne : t.readReg r ≠ s.readReg r) :
    (∃ v, a = .regWrite (regNumber r) v) ∨
      ∃ w c d, a = .regWrite 0 w ∧ decode w = .ok c ∧ pixDest c = some d ∧ (r = .pbw d ∨ r = .pbh d) := by
  cases h with
  | ignored => exact absurd rfl hne
  | answered _ o => exact absurd (readReg_setReply s o r) hne
  | regWritten n v =>
    by_cases hn : regNumber r = n
    · exact .inl ⟨v, by rw [hn]⟩
    · rw [← regRead_regNumber, ← regRead_regNumber, regRead_regWrite_ne hn] at hne
      exact absurd rfl hne
  | pixWritten p o b =>
    rw [← regRead_regNumber, ← regRead_regNumber, regRead_setPB_mem] at hne
    exact absurd rfl hne
  | raised w e hf => exact absurd (readReg_raise hr e w s) hne
  | filled w c hc d hd b => exact absurd (readReg_setHB hr s d b) hne
  | painted w c hc d hd W H bytes =>
    by_cases hrd : r = .pbw d ∨ r = .pbh d
    · exact .inr ⟨w, c, d, rfl, hc, hd, hrd⟩
    · exact absurd (readReg_setImage_of_ne hrd s W H bytes) hne

theorem Effect.width_writer (hne : t.width ≠ s.width) : ∃ v, a = .regWrite 2 v := by
  rcases h.readReg_writer (r := .width) rfl hne with hv | ⟨_, _, _, -, -, -, hr | hr⟩
  · exact hv
  · cases hr
  · cases hr

theorem Effect.height_writer (hne : t.height ≠ s.height) : ∃ v, a = .regWrite 3 v := by
  rcases h.readReg_writer (r := .height) rfl hne with hv | ⟨_, _, _, -, -, -, hr | hr⟩
  · exact hv
  · cases hr
  · cases hr

theorem Effect.pbw_writer {p : PSlot} (hne : (t.slot p).w ≠ (s.slot p).w) :
    (∃ v, a = .regWrite (8 + 2 * p) v) ∨ ∃ w c, a = .regWrite 0 w ∧ decode w = .ok c ∧ pixDest c = some p := by
  rcases h.readReg_writer (r := .pbw p) rfl hne with hv | ⟨w, c, d, ha, hc, hd, hr | hr⟩
  · exact .inl hv
  · cases hr
    exact .inr ⟨w, c, ha, hc, hd⟩
  · cases hr

theorem Effect.pbh_writer {p : PSlot} (hne : (t.slot p).h ≠ (s.slot p).h) :
    (∃ v, a = .regWrite (9 + 2 * p) v) ∨ ∃ w c, a = .regWrite 0 w ∧ decode w = .ok c ∧ pixDest c = some p := by
  rcases h.readReg_writer (r := .pbh p) rfl hne with hv | ⟨w, c, d, ha, hc, hd, hr | hr⟩
  · exact .inl hv
  · cases hr
  · cases hr
    exact .inr ⟨w, c, ha, hc, hd⟩

theorem Effect.pixByte_writer {p : PSlot} {o : Nat} (hne : t.pixByte p o ≠ s.pixByte p o) :
    (∃ b, a = .pixWrite p o b) ∨ ∃ w c, a = .regWrite 0 w ∧ decode w = .ok c ∧ pixDest c = some p := by
  cases h with
  | regWritten n v => exact absurd (regWrite_pixByte s n v p o) hne
  | pixWritten q k b =>
    by_cases hplace : p = q ∧ o = k
    · obtain ⟨rfl, rfl⟩ := hplace
      exact .inl ⟨b, rfl⟩
    · rw [pixByte_setPB_memWrite, if_neg hplace] at hne
      exact absurd rfl hne
  | painted w c hc d hd W H bytes =>
    by_cases hpd : p = d
    · exact .inr ⟨w, c, rfl, hc, hpd ▸ hd⟩
    · rw [setImage_pixByte, if_neg fun hp => hpd hp.1] at hne
      exact absurd rfl hne
  | _ => exact absurd rfl hne

/-- The record of an error is written by fault entry alone, with `FAULT = 0` before it (R168, R169). -/
theorem Effect.record_writer (hne : t.status ≠ s.status ∨ t.faultcmd ≠ s.faultcmd) :
    faultFlag s.status = false ∧ ∃ w e, a = .regWrite 0 w ∧ t = raise e w s := by
  cases h with
  | raised w e hf => exact ⟨hf, w, e, rfl, rfl⟩
  | regWritten n v =>
    obtain ⟨-, -, hstatus, hfaultcmd, -⟩ := regWrite_frame s n v
    exact hne.elim (absurd hstatus) (absurd hfaultcmd)
  | _ => exact hne.elim (absurd rfl) (absurd rfl)

end

/-- Settles O15: reset by the state it leaves, every other access by its effect on each piece of state. -/
theorem writersOfState : Obligations.WritersOfState := by
  refine ⟨fun s t h => ?_, fun a s t hbus hreset h => ?_⟩
  · cases h
    exact ⟨powerOn_buf _ _ _, rfl, rfl⟩
  · have he := perform_effect hbus hreset h
    exact ⟨fun _ => he.buf_writer, fun _ => he.pbw_writer, fun _ => he.pbh_writer, fun _ _ => he.pixByte_writer,
      he.width_writer, he.height_writer, he.record_writer⟩

end Sys2Proof.Machine
end

section
/-!
The channel values of high-precision slots are hidden from the host (R24): two states of one shape, which differ in
channel values alone, answer every access that issues no command alike. Settles O16.
-/

namespace Sys2Proof.Machine

/-- This state with other high-precision slots. -/
def State.withBuffers (s : State) (hb : Vector HBuf 8) : State := { s with hb := hb }

/-- The two states differ in channel values of high-precision slots alone. -/
structure SameShapes (s t : State) : Prop where
  rest : t = s.withBuffers t.hb
  w : ∀ i : HSlot, (t.buf i).w = (s.buf i).w
  h : ∀ i : HSlot, (t.buf i).h = (s.buf i).h

/-! ### Accesses that take no buffer's values into account -/

section
variable (s : State) (hb : Vector HBuf 8)

theorem regWrite_withBuffers (n : Nat) (v : Word) :
    (s.withBuffers hb).regWrite n v = (s.regWrite n v).withBuffers hb := by
  cases hr : regOfNumber n with
  | none => rw [regWrite_of_none hr, regWrite_of_none hr]
  | some r =>
    rw [regWrite_of_some hr, regWrite_of_some hr]
    cases r <;> rfl

theorem pixWrite_withBuffers (n o : Nat) (b : Byte) :
    (s.withBuffers hb).pixWrite n o b = (s.pixWrite n o b).withBuffers hb := by
  unfold State.pixWrite
  cases pslotOf n with
  | none => rfl
  | some p =>
    have hmax : (s.withBuffers hb).maxPix = s.maxPix := rfl
    simp only [hmax]
    split <;> rfl

end

section
variable {s t : State} (hst : SameShapes s t)
include hst

theorem SameShapes.regRead (n : Nat) : t.regRead n = s.regRead n := by
  cases hr : regOfNumber n with
  | none => rw [regRead_of_none hr, regRead_of_none hr]
  | some r =>
    rw [regRead_of_some hr, regRead_of_some hr]
    cases r with
    | hbw i => exact congrArg (BitVec.ofNat 32) (hst.w i)
    | hbh i => exact congrArg (BitVec.ofNat 32) (hst.h i)
    | _ => rw [hst.rest]; rfl

theorem SameShapes.pixRead (n o : Nat) : t.pixRead n o = s.pixRead n o := by
  rw [hst.rest]; rfl

/-- An update that leaves the high-precision slots alone and does not depend on them keeps two states of one shape. -/
theorem SameShapes.update {f : State → State} (hcomm : ∀ u hb, f (u.withBuffers hb) = (f u).withBuffers hb)
    (hbuf : ∀ u (i : HSlot), (f u).buf i = u.buf i) : SameShapes (f s) (f t) where
  rest := by
    have ht : f t = (f s).withBuffers t.hb := (congrArg f hst.rest).trans (hcomm s t.hb)
    rw [ht]; rfl
  w i := by rw [hbuf, hbuf, hst.w]
  h i := by rw [hbuf, hbuf, hst.h]

theorem SameShapes.platformReset : Machine.platformReset t = Machine.platformReset s := by
  rw [hst.rest]; rfl

/-- An access that issues no command takes two states of one shape to two of one shape, the answer included. -/
theorem SameShapes.perform {a : Access} (hcmd : ∀ w, a ≠ .regWrite 0 w) (hbus : a.onBus = false) :
    ∃ s' t', Machine.perform a s = .next s' ∧ Machine.perform a t = .next t' ∧ SameShapes s' t' := by
  have hreply (r : Option Reply) : SameShapes { s with reply := r } { t with reply := r } :=
    hst.update (f := fun u => { u with reply := r }) (fun _ _ => rfl) (fun _ _ => rfl)
  cases a with
  | regRead n => exact ⟨_, _, rfl, rfl, by rw [hst.regRead]; exact hreply _⟩
  | regWrite n v =>
    have hn : n ≠ 0 := fun h => hcmd v (h ▸ rfl)
    exact ⟨_, _, perform_regWrite_of_ne hn v s, perform_regWrite_of_ne hn v t,
      hst.update (f := (·.regWrite n v)) (fun u hb => regWrite_withBuffers u hb n v)
        (fun u => regWrite_buf u n v)⟩
  | pixRead p o => exact ⟨_, _, rfl, rfl, by rw [hst.pixRead]; exact hreply _⟩
  | pixWrite n o b =>
    exact ⟨_, _, rfl, rfl, hst.update (f := (·.pixWrite n o b)) (fun u hb => pixWrite_withBuffers u hb n o b)
      (fun u => pixWrite_buf u n o b)⟩
  | reset => exact ⟨_, _, rfl, rfl, by rw [hst.platformReset]; exact ⟨rfl, fun _ => rfl, fun _ => rfl⟩⟩
  | busRead addr len => cases hbus
  | busWrite addr len v => cases hbus

end

/-- Settles O16: the two next states are of one shape, and the answer is one of the parts they share. -/
theorem channelValuesHidden : Obligations.ChannelValuesHidden := by
  intro s t s' t' a hrest hdims hcmd hbus hs ht
  have hst : SameShapes s t := ⟨hrest, fun i => (hdims i).1, fun i => (hdims i).2⟩
  obtain ⟨s₁, t₁, hs₁, ht₁, hshape⟩ := hst.perform hcmd hbus
  cases hs₁.symm.trans hs
  cases ht₁.symm.trans ht
  exact ⟨by rw [hshape.rest]; rfl, hshape.rest, fun i => ⟨hshape.w i, hshape.h i⟩⟩

end Sys2Proof.Machine
end

section
/-!
The platform's bus (R51, R54, R56), the step that issues a command (R57, R80) and the reads (R55). Settles O14, O6
and O13.
-/

namespace Sys2Proof.Machine

/-! ### The bus -/

section
variable {m : Config.BusMap} {s : State} {addr len : Nat}

/-- A bus access that stands for one register alone is the access to that register. -/
theorem performBus_of_reg {n : Nat} (h : busTargets m s.maxPix addr len = [.reg n]) (v : Word) :
    performBusRead m addr len s = perform (.regRead n) s ∧
      performBusWrite m addr len v s = perform (.regWrite n v) s := by
  rw [performBusRead, performBusWrite, h]
  exact ⟨rfl, rfl⟩

/-- A bus access that stands for one pixel byte alone is the access to that byte. -/
theorem performBus_of_pix {p o : Nat} (h : busTargets m s.maxPix addr len = [.pix p o]) (v : Word) :
    performBusRead m addr len s = perform (.pixRead p o) s ∧
      performBusWrite m addr len v s = perform (.pixWrite p o (v.setWidth 8)) s := by
  rw [performBusRead, performBusWrite, h]
  exact ⟨rfl, rfl⟩

/-- A bus access that does not stand for one place alone is refused. -/
theorem performBus_refused (h : ∀ x, busTargets m s.maxPix addr len ≠ [x]) (v : Word) :
    performBusRead m addr len s = .refused .busAccess ∧
      performBusWrite m addr len v s = .refused .busAccess := by
  rcases performBus_cases m addr len v s with ⟨n, hx, -⟩ | ⟨p, o, hx, -⟩ | ⟨-, hrefused⟩
  · exact absurd hx (h _)
  · exact absurd hx (h _)
  · exact hrefused

end

theorem busTargets_regAddr {m : Config.BusMap} {n : Nat} (cap : Nat) (hn : n < 32)
    (hu : ∀ k, k < 32 → m.regAddr k = m.regAddr n → k = n) : busTargets m cap (m.regAddr n) 4 = [.reg n] :=
  busTargets_eq_singleton.mpr (.inl ⟨n, rfl, rfl, ⟨hn, rfl⟩, fun k hk hkn => hu k hk hkn.symm⟩)

theorem busTargets_pixAddr {m : Config.BusMap} {cap p o : Nat} (hp : p < 4) (ho : o < 3 * cap)
    (hu : ∀ q, q < 4 → m.pixBase q ≤ m.pixBase p + o → m.pixBase p + o < m.pixBase q + 3 * cap → q = p) :
    busTargets m cap (m.pixBase p + o) 1 = [.pix p o] :=
  busTargets_eq_singleton.mpr (.inr ⟨p, rfl, by rw [Nat.add_sub_cancel_left],
    ⟨hp, Nat.le_add_right _ _, Nat.add_lt_add_left ho _⟩, fun q hq ⟨hlo, hhi⟩ => hu q hq hlo hhi⟩)

/-- One place alone at an address is 4 bytes at the address of exactly one register, or 1 byte in exactly one pixel
region. -/
theorem unique_place_of_busTargets {m : Config.BusMap} {cap addr len : Nat} {x : BusTarget}
    (h : busTargets m cap addr len = [x]) :
    (len = 4 ∧ ∃! n, n < 32 ∧ addr = m.regAddr n) ∨
      (len = 1 ∧ ∃! p, p < 4 ∧ m.pixBase p ≤ addr ∧ addr < m.pixBase p + 3 * cap) := by
  rcases busTargets_eq_singleton.mp h with ⟨n, h4, -, hn, hu⟩ | ⟨p, h1, -, hp, hu⟩
  · exact .inl ⟨h4, n, hn, fun k ⟨hk, haddr⟩ => hu k hk haddr⟩
  · exact .inr ⟨h1, p, hp, fun q ⟨hq, hin⟩ => hu q hq hin⟩

/-- Settles O14, from the one place an address stands for. -/
theorem busAccess : Obligations.BusAccess := by
  intro m s v
  refine ⟨fun n hn hu => ?register, fun p o hp ho hu => ?pixelByte, fun addr len hreg hpix => ?other,
    fun addr len => ⟨rfl, rfl⟩⟩
  case register => exact performBus_of_reg (busTargets_regAddr s.maxPix hn hu) v
  case pixelByte => exact performBus_of_pix (busTargets_pixAddr hp ho hu) v
  case other =>
    refine performBus_refused (fun x hx => ?_) v
    exact (unique_place_of_busTargets hx).elim hreg hpix

/-! ### The step that issues a command -/

theorem issue_of_decode {s : State} {w : Word} {i : Instr} (hf : faultFlag s.status = false)
    (hd : decode w = .ok i) : issue w s = exec i s := by
  simp [issue, hf, hd]

/-- Where the next access is the write to `CMD` of a word that decodes, the step is the command's meaning, on the state
the access is performed in. -/
theorem step_of_decode {s : State} {w : Word} {i : Instr} {rest : List Access}
    (htodo : s.todo = .regWrite 0 w :: rest) (hf : faultFlag s.status = false) (hd : decode w = .ok i) :
    step s = exec i (s.takeAccess rest) := by
  rw [step_cons htodo, perform_regWrite_zero, issue_of_decode (by rwa [takeAccess_status]) hd]

theorem withFetchWord_toNat (s : State) (w : Word) : s.withFetchWord 32 w.toNat = s.withCommand w := by
  rw [State.withFetchWord, Nat.mod_eq_of_lt w.isLt, BitVec.ofNat_toNat, BitVec.setWidth_eq]

/-- Settles O6: a word placed by `withFetchWord` is the next access of a list that is otherwise the host's. -/
theorem stepRunsDecodedCommand : Obligations.StepRunsDecodedCommand := by
  intro s w i hf hd
  refine ⟨fun rest htodo => step_of_decode htodo hf hd, ?_⟩
  rw [withFetchWord_toNat, step_of_decode (withCommand_todo s w) hf hd, withCommand_takeAccess]
  rfl

/-! ### The reads -/

/-- Settles O13: `perform` of a read is the state with its answer, by definition. -/
theorem readsHaveNoSideEffect : Obligations.ReadsHaveNoSideEffect := fun _ _ _ _ => ⟨rfl, rfl⟩

end Sys2Proof.Machine
end

section
/-!
The decoder on the fields of a word: one equation for each command, and what they say of the words the encoder writes.
The decoder and the encoder are inverse to each other (R79, R81). Settles O2, O3 and O1.
-/

namespace Sys2Proof

/-! ### Slot numbers -/

theorem hslotAt_of_field {w : Word} {lo : Nat} {i : HSlot} (h : w.extractLsb' lo 4 = slotBits i) :
    hslotAt w lo = i := by
  apply Fin.ext
  rw [hslotAt_val, h, slotBits_toNat _ (by omega), Nat.mod_eq_of_lt i.isLt]

theorem pslotAt_of_field {w : Word} {lo : Nat} {p : PSlot} (h : w.extractLsb' lo 4 = slotBits p) :
    pslotAt w lo = p := by
  apply Fin.ext
  rw [pslotAt_val, h, slotBits_toNat _ (by omega), Nat.mod_eq_of_lt p.isLt]

@[simp] theorem slotBits_hslot_lt (i : HSlot) : (slotBits i).toNat < 8 := by
  rw [slotBits_toNat _ (by omega)]
  exact i.isLt

@[simp] theorem slotBits_pslot_lt (p : PSlot) : (slotBits p).toNat < 4 := by
  rw [slotBits_toNat _ (by omega)]
  exact p.isLt

theorem slotBits_hslot_inj {i j : HSlot} : slotBits i = slotBits j ↔ i = j := by
  revert i j
  decide

/-! ### The decoder on the fields -/

section
variable {w : Word}

theorem decode_create (hop : opField w = 1) (hd : (dField w).toNat < 8) (ha : aField w = 0) (hb : bField w = 0)
    (himm : immField w = 0) : decode w = .ok (.create (hslotAt w 24)) :=
  if_pos ((create_test w).mpr ⟨hop, hd, ha, hb, himm⟩)

theorem decode_frompix (hop : opField w = 2) (hd : (dField w).toNat < 8) (ha : (aField w).toNat < 4)
    (hb : bField w = 0) (himm : immField w = 0) :
    decode w = .ok (.frompix (hslotAt w 24) (pslotAt w 20)) := by
  simp [decode, create_test, frompix_test, hop, hd, ha, hb, himm]

theorem decode_topix (hop : opField w = 3) (hd : (dField w).toNat < 4) (ha : (aField w).toNat < 8)
    (hb : bField w = 0) (himm : immField w = 0) :
    decode w = .ok (.topix (pslotAt w 24) (hslotAt w 20)) := by
  simp [decode, create_test, frompix_test, topix_test, hop, hd, ha, hb, himm]

theorem decode_blur_self (hop : opField w = 4) (hd : (dField w).toNat < 8) (hb : bField w = 0)
    (hda : dField w = aField w) : decode w = .error .sameSlot := by
  have hslot : hslotAt w 24 = hslotAt w 20 := hslotAt_of_field (by
    rw [slotBits_hslotAt (hda ▸ hd : (aField w).toNat < 8)]
    exact hda)
  simp [decode, create_test, frompix_test, topix_test, blur_test, hop, hd, hda ▸ hd, hb, hslot]

theorem decode_blur (hop : opField w = 4) (hd : (dField w).toNat < 8) (ha : (aField w).toNat < 8)
    (hb : bField w = 0) (hda : dField w ≠ aField w) :
    decode w = .ok (.blur (hslotAt w 24) (hslotAt w 20) (immField w)) := by
  have hslot : hslotAt w 24 ≠ hslotAt w 20 := fun h => hda (by
    rw [dField, ← slotBits_hslotAt hd, h, slotBits_hslotAt ha, aField])
  simp [decode, create_test, frompix_test, topix_test, blur_test, hop, hd, ha, hb, hslot]

theorem decode_diff (hop : opField w = 5) (hd : (dField w).toNat < 4) (ha : (aField w).toNat < 8)
    (hb : (bField w).toNat < 8) (himm : immField w = 0) :
    decode w = .ok (.diff (pslotAt w 24) (hslotAt w 20) (hslotAt w 16)) := by
  simp [decode, create_test, frompix_test, topix_test, blur_test, diff_test, hop, hd, ha, hb, himm]

end

/-! ### The decoder on the words of the encoder -/

theorem decode_encode {i : Instr} (hi : i.wellFormed = true) : decode (encode i) = .ok i := by
  cases i with
  | create d =>
    rw [encode, decode_create (by simp) (by simp) (by simp) (by simp) (by simp),
      hslotAt_of_field (dField_commandWord ..)]
  | frompix d a =>
    rw [encode, decode_frompix (by simp) (by simp) (by simp) (by simp) (by simp),
      hslotAt_of_field (dField_commandWord ..), pslotAt_of_field (aField_commandWord ..)]
  | topix d a =>
    rw [encode, decode_topix (by simp) (by simp) (by simp) (by simp) (by simp),
      pslotAt_of_field (dField_commandWord ..), hslotAt_of_field (aField_commandWord ..)]
  | blur d a r =>
    have hda : d ≠ a := bne_iff_ne.mp hi
    rw [encode, decode_blur (by simp) (by simp) (by simp) (by simp) (by simpa [slotBits_hslot_inj] using hda),
      hslotAt_of_field (dField_commandWord ..), hslotAt_of_field (aField_commandWord ..), immField_commandWord]
  | diff d a b =>
    rw [encode, decode_diff (by simp) (by simp) (by simp) (by simp) (by simp),
      pslotAt_of_field (dField_commandWord ..), hslotAt_of_field (aField_commandWord ..),
      hslotAt_of_field (bField_commandWord ..)]

/-- The word of a BLUR onto its own source is refused (R76 (e)). -/
theorem decode_encode_blur_self (d : HSlot) (r : BitVec 16) :
    decode (encode (.blur d d r)) = .error .sameSlot := by
  rw [encode, decode_blur_self (by simp) (by simp) (by simp) (by simp)]

theorem decode_of_encode_eq {i : Instr} {w : Word} (hi : i.wellFormed = true) (h : encode i = w) :
    decode w = .ok i :=
  h ▸ decode_encode hi

/-- The one term of `Instr` that is no command has a word that does not decode. -/
theorem wellFormed_of_decode {w : Word} {i : Instr} (h : decode w = .ok i) : i.wellFormed = true := by
  cases i with
  | blur d a r =>
    refine bne_iff_ne.mpr fun hda => ?_
    rw [← encode_of_decode h, hda, decode_encode_blur_self] at h
    cases h
  | create | frompix | topix | diff => rfl

/-- Settles O2, by the decoder's equation for each command. -/
theorem decodeOfEncode : Obligations.DecodeOfEncode := fun _ => decode_encode

/-- Settles O3: the encoder inverts the decoder, and a BLUR onto its own source is what no word decodes to. -/
theorem encodeOfDecode : Obligations.EncodeOfDecode := fun _ _ h => ⟨wellFormed_of_decode h, encode_of_decode h⟩

/-- Settles O1: the legal words decode because they are the encoder's, the illegal ones are refused by evaluation. -/
theorem workedEncodings : Obligations.WorkedEncodings := by
  refine ⟨?encoded, ?decoded, ?refused⟩
  case encoded => decide
  case decoded =>
    refine ⟨?_, ?_, ?_, ?_, ?_, ?_, ?_, ?_, ?_, ?_⟩ <;> exact decode_of_encode_eq rfl rfl
  case refused =>
    refine ⟨?_, ?_, ?_, ?_, ?_, ?_, ?_, ?_, ?_, ?_⟩ <;> rfl

end Sys2Proof
end

section
/-!
The words the decoder refuses and their issue (R76, R80), and the CHAIN onto its own source (log entry 15). Settles O4,
O5 and O50.
-/

namespace Sys2Proof.Machine

/-! ### Illegal words -/

/-- No word of a well-formed command meets a condition of R76. -/
theorem not_illegalWord_encode {i : Instr} (hi : i.wellFormed = true) : ¬illegalWord (encode i) := by
  cases i with
  | blur d a r =>
    have hda : d ≠ a := bne_iff_ne.mp hi
    simp [illegalWord, encode, slotBits_hslot_inj, hda]
  | create | frompix | topix | diff => simp [illegalWord, encode]

theorem opcode_cases {x : BitVec 4} (h : ¬(x = 0 ∨ 6 ≤ x.toNat)) :
    x = 1 ∨ x = 2 ∨ x = 3 ∨ x = 4 ∨ x = 5 := by
  revert x
  decide

/-- A word that meets no condition of R76 passes the test of its opcode. -/
theorem exists_decode_of_not_illegalWord {w : Word} (h : ¬illegalWord w) : ∃ i, decode w = .ok i := by
  rcases opcode_cases fun hop => h (.inl hop) with hop | hop | hop | hop | hop
  · obtain ⟨⟨ha, hb, himm⟩, hd⟩ :
        (aField w = 0 ∧ bField w = 0 ∧ immField w = 0) ∧ (dField w).toNat < 8 := by
      simpa [illegalWord, hop] using h
    exact ⟨_, decode_create hop hd ha hb himm⟩
  · obtain ⟨⟨hb, himm⟩, hd, ha⟩ :
        (bField w = 0 ∧ immField w = 0) ∧ (dField w).toNat < 8 ∧ (aField w).toNat < 4 := by
      simpa [illegalWord, hop] using h
    exact ⟨_, decode_frompix hop hd ha hb himm⟩
  · obtain ⟨⟨hb, himm⟩, ha, hd⟩ :
        (bField w = 0 ∧ immField w = 0) ∧ (aField w).toNat < 8 ∧ (dField w).toNat < 4 := by
      simpa [illegalWord, hop] using h
    exact ⟨_, decode_topix hop hd ha hb himm⟩
  · obtain ⟨hb, ⟨hd, ha⟩, hda⟩ :
        bField w = 0 ∧ ((dField w).toNat < 8 ∧ (aField w).toNat < 8) ∧ dField w ≠ aField w := by
      simpa [illegalWord, hop] using h
    exact ⟨_, decode_blur hop hd ha hb hda⟩
  · obtain ⟨himm, ⟨ha, hb⟩, hd⟩ :
        immField w = 0 ∧ ((aField w).toNat < 8 ∧ (bField w).toNat < 8) ∧ (dField w).toNat < 4 := by
      simpa [illegalWord, hop] using h
    exact ⟨_, decode_diff hop hd ha hb himm⟩

theorem decode_error_iff {w : Word} : (∃ e, decode w = .error e) ↔ illegalWord w := by
  cases hd : decode w with
  | error e =>
    have : illegalWord w := by
      by_contra h
      obtain ⟨i, hi⟩ := exists_decode_of_not_illegalWord h
      cases hd.symm.trans hi
    simpa using this
  | ok i =>
    have : ¬illegalWord w := encode_of_decode hd ▸ not_illegalWord_encode (wellFormed_of_decode hd)
    simpa using this

/-! ### The issue of a word -/

theorem issue_of_fault {s : State} (hf : faultFlag s.status = true) (w : Word) : issue w s = .next s :=
  if_pos hf

theorem issue_of_error {s : State} {w : Word} {e : Illegal} (hf : faultFlag s.status = false)
    (hd : decode w = .error e) : issue w s = .next (raise .illegalCommand w s) := by
  simp [issue, hf, hd]

/-- Settles O4: a word with legal fields decodes, and no word of a well-formed command meets R76. -/
theorem illegalWordsExactly : Obligations.IllegalWordsExactly := by
  refine ⟨fun w => ⟨decode_error_iff, fun _ hw hf => ?_⟩, decode_error_iff.mp ⟨.opcode, rfl⟩,
    decode_error_iff.mp ⟨.opcode, rfl⟩⟩
  obtain ⟨e, hd⟩ := decode_error_iff.mpr hw
  exact ⟨_, issue_of_error hf hd, raise_faultEntered _ _ _⟩

/-- Settles O5, by the three outcomes of an issue. -/
theorem commandIssue : Obligations.CommandIssue := fun _ w =>
  ⟨fun hf => issue_of_fault hf w,
    fun hf _ hd => ⟨_, issue_of_error hf hd, raise_faultEntered _ _ _⟩,
    fun hf _ hd => issue_of_decode hf hd⟩

/-! ### CHAIN onto its own source -/

theorem blurPasses_self (r : BitVec 16) (n : Nat) (e : HSlot) :
    blurPasses r n e e = List.replicate n (.blur e e r) := by
  induction n with
  | zero => rfl
  | succ n ih => rw [blurPasses, ih, List.replicate_succ]

theorem issueAll_cons (i : Instr) (l : List Instr) : issueAll (i :: l) = .regWrite 0 (encode i) :: issueAll l := rfl

/-- A FROMPIX takes no account of the host's list and last answer. -/
theorem exec_frompix_takeAccess {d : HSlot} {p : PSlot} {s t : State} (h : exec (.frompix d p) s = .next t)
    (l : List Access) : exec (.frompix d p) (s.takeAccess l) = .next (t.takeAccess l) := by
  rcases execFrompix_cases d p s with ⟨e, he, hx⟩ | ⟨W, H, hd, hx⟩
  · cases hx.symm.trans h
    simp only [exec, execFrompix, takeAccess_maxPix, takeAccess_slot, he]
    rfl
  · cases hx.symm.trans h
    simp only [exec, execFrompix, takeAccess_maxPix, takeAccess_slot, hd]
    rfl

/-- A FROMPIX with legal dimensions records no error. -/
theorem exec_frompix_status {d : HSlot} {p : PSlot} {s t : State} (hw : 0 < (s.slot p).w.toInt)
    (hh : 0 < (s.slot p).h.toInt) (hcap : (s.slot p).w.toInt * (s.slot p).h.toInt ≤ s.maxPix)
    (h : exec (.frompix d p) s = .next t) : t.status = s.status := by
  rcases execFrompix_cases d p s with ⟨e, he, -⟩ | ⟨W, H, -, hx⟩
  · rcases imageDims_error_iff.mp he with ⟨-, hle⟩ | ⟨-, -, -, hlt⟩ <;> omega
  · cases hx.symm.trans h
    exact setHB_status ..

/-- With an error recorded the host's commands are ignored one after another (R169). -/
theorem runSteps_issueAll_of_fault (l : List Instr) {s : State} (htodo : s.todo = issueAll l)
    (hreply : s.reply = none) (hf : faultFlag s.status = true) : runSteps l.length s = .next (s.takeAccess []) := by
  induction l generalizing s with
  | nil =>
    have hidle : s.takeAccess [] = s := by
      cases s
      cases htodo
      cases hreply
      rfl
    rw [hidle]
    rfl
  | cons i l ih =>
    have hissue := issue_of_fault (s := s.takeAccess (issueAll l)) hf (encode i)
    exact (runSteps_issue htodo hissue).trans (ih rfl rfl hf)

/-- Of several commands to BLUR a slot onto itself, the first is the one the fault records (R168). -/
theorem runSteps_blur_self {n : Nat} {e : HSlot} {r : BitVec 16} {s : State}
    (htodo : s.todo = issueAll (List.replicate (n + 1) (.blur e e r))) (hf : faultFlag s.status = false) :
    runSteps (n + 1) s = .next (raise .illegalCommand (encode (.blur e e r)) (s.takeAccess [])) := by
  have hrefused (l : List Access) : issue (encode (.blur e e r)) (s.takeAccess l) =
      .next (raise .illegalCommand (encode (.blur e e r)) (s.takeAccess l)) :=
    issue_of_error hf (decode_encode_blur_self e r)
  have hignored := runSteps_issueAll_of_fault (List.replicate n (.blur e e r))
    (s := raise .illegalCommand (encode (.blur e e r)) (s.takeAccess (issueAll (List.replicate n (.blur e e r)))))
    rfl rfl (faultFlag_faultStatus _)
  rw [List.length_replicate] at hignored
  exact (runSteps_issue htodo (hrefused _)).trans hignored

/-- Settles O50: the copy, then five times the BLUR that is refused. -/
theorem chainOntoItself : Obligations.ChainOntoItself := by
  intro e p r
  have hchain : chain e e p r = .frompix e p :: List.replicate 5 (.blur e e r) :=
    congrArg (Instr.frompix e p :: ·) (blurPasses_self r 5 e)
  refine ⟨hchain, fun s t hf hw hh hcap hx => ?_⟩
  have hft : faultFlag t.status = false := by rwa [exec_frompix_status hw hh hcap hx]
  have hcopied (l : List Access) : issue (encode (.frompix e p)) (s.takeAccess l) = .next (t.takeAccess l) :=
    (issue_of_decode (s := s.takeAccess l) hf (decode_encode rfl)).trans (exec_frompix_takeAccess hx l)
  have hrun : runSteps 6 (s.withProgram (issueAll (chain e e p r))) =
      .next (raise .illegalCommand (encode (.blur e e r)) (t.takeAccess [])) := by
    have htodo : (s.withProgram (issueAll (chain e e p r))).todo =
        .regWrite 0 (encode (.frompix e p)) :: issueAll (List.replicate 5 (.blur e e r)) := by
      rw [withProgram_todo, hchain, issueAll_cons]
    exact (runSteps_issue htodo (hcopied _)).trans (runSteps_blur_self rfl hft)
  have hfault := raise_faultEntered .illegalCommand (encode (.blur e e r)) (t.takeAccess [])
  exact ⟨_, hrun, hfault.todo, hfault.fault, hfault.code, hfault.faultcmd, hfault.buffers⟩

end Sys2Proof.Machine
end

section
/-!
The narrowing of a channel value (R96), as a floor and a clamp of its exact value. Settles O36.
-/

namespace Sys2Proof.Machine

/-- The magnitude of an infinity exceeds every finite one, so that `fVal` orders infinities too. -/
theorem fMag_lt_of_finite_of_inf {a b : Binary64} (ha : fIsFinite a = true) (hb : fIsInf b = true) :
    fMag a < fMag b := by
  rw [fMag_eq a, eq_fPack_of_inf hb, fMag_fPack _ _ (by decide)]
  exact magOf_strictMono ((fIsFinite_iff a).mp ha)

theorem not_finite_of_inf {x : Binary64} (h : fIsInf x = true) : fIsFinite x = false := by
  simp only [fIsInf, Bool.and_eq_true, beq_iff_eq] at h
  simp [fIsFinite, h.1]

theorem fMag_f255 : fMag f255 = 255 * fUnit := by
  rw [← natAbs_fVal, fVal_f255]
  exact Int.natAbs_natCast (255 * fUnit)

theorem narrow8_of_nan {v : Binary64} (h : fIsNaN v = true) : narrow8 v = 0 := if_pos h

section
variable {v : Binary64} (hv : fIsNaN v = false) (ht : fIsNaN (ffloor v) = false)
include hv ht

theorem narrow8_of_floor_neg (h : fVal (ffloor v) < 0) : narrow8 v = 0 := by
  simp [narrow8, hv, flt_fZero ht, h]

theorem narrow8_of_255_le_floor (h : 255 * (fUnit : Int) ≤ fVal (ffloor v)) : narrow8 v = 255 := by
  have h0 : ¬fVal (ffloor v) < 0 := by omega
  simp [narrow8, hv, flt_fZero ht, h0, fge_f255 ht, h]

theorem narrow8_of_floor_in_range (h0 : 0 ≤ fVal (ffloor v)) (h : fVal (ffloor v) < 255 * fUnit) :
    narrow8 v = u8OfF (ffloor v) := by
  simp [narrow8, hv, flt_fZero ht, h0.not_gt, fge_f255 ht, h.not_ge]

end

/-- The floor of a finite value is an integer number of units, and the clamp is read on that integer. -/
theorem narrow8_of_finite {v : Binary64} (h : fIsFinite v = true) :
    ((narrow8 v).toNat : Int) = min 255 (max 0 (fVal v / fUnit)) := by
  obtain ⟨hfin, hval⟩ := ffloor_spec h
  have hv := not_nan_of_finite h
  have ht := not_nan_of_finite hfin
  have hu : (0 : Int) < fUnit := by exact_mod_cast fUnit_pos
  generalize fVal v / fUnit = q at hval ⊢
  rcases lt_or_ge q 0 with hneg | hnonneg
  · have : fVal (ffloor v) < 0 := hval ▸ Int.mul_neg_of_neg_of_pos hneg hu
    rw [narrow8_of_floor_neg hv ht this, max_eq_left hneg.le]
    rfl
  rw [max_eq_right hnonneg]
  rcases le_or_gt 255 q with hbig | hsmall
  · have : 255 * (fUnit : Int) ≤ fVal (ffloor v) := hval ▸ Int.mul_le_mul_of_nonneg_right hbig hu.le
    rw [narrow8_of_255_le_floor hv ht this, min_eq_left hbig]
    rfl
  · have h0 : 0 ≤ fVal (ffloor v) := hval ▸ Int.mul_nonneg hnonneg hu.le
    have h255 : fVal (ffloor v) < 255 * fUnit := hval ▸ Int.mul_lt_mul_of_pos_right hsmall hu
    obtain ⟨n, rfl⟩ := Int.eq_ofNat_of_zero_le hnonneg
    rw [narrow8_of_floor_in_range hv ht h0 h255, u8OfF_of_fVal_eq (by omega) hval, min_eq_right hsmall.le]

/-- An infinity is its own floor and lies beyond both ends of the clamp. -/
theorem narrow8_of_inf {v : Binary64} (h : fIsInf v = true) : narrow8 v = if fSign v then 0 else 255 := by
  have hv := not_nan_of_inf h
  have hfloor : ffloor v = v := ffloor_eq_self (.inl (not_finite_of_inf h))
  have ht : fIsNaN (ffloor v) = false := hfloor.symm ▸ hv
  have hmag : 255 * fUnit < fMag v := fMag_f255 ▸ fMag_lt_of_finite_of_inf (by decide) h
  cases hs : fSign v
  · rw [narrow8_of_255_le_floor hv ht]
    · rfl
    · rw [hfloor, fVal, hs, if_neg Bool.false_ne_true]
      exact_mod_cast hmag.le
  · rw [narrow8_of_floor_neg hv ht]
    · rfl
    · rw [hfloor, fVal_neg_iff (by omega), hs]

/-- Settles O36, by the class of the value: a NaN, a finite value or an infinity. -/
theorem narrowFloorsThenClamps : Obligations.NarrowFloorsThenClamps := fun _ =>
  ⟨narrow8_of_nan, narrow8_of_finite, narrow8_of_inf⟩

/-- A byte comes back from its widening: it is an integer from 0 to 255, which neither the floor nor the clamp
changes (R92, R94). -/
@[simp] theorem narrow8_fOfU8 (b : Byte) : narrow8 (fOfU8 b) = b := by
  obtain ⟨hfin, -, hval⟩ := conversionsAreExact.1 b
  have hu : (fUnit : Int) ≠ 0 := by exact_mod_cast fUnit_pos.ne'
  have h := narrow8_of_finite hfin
  rw [hval, Int.mul_ediv_cancel _ hu] at h
  have := b.isLt
  apply BitVec.eq_of_toNat_eq
  omega

end Sys2Proof.Machine
end

section
/-!
CREATE, FROMPIX and TOPIX when they complete (R91 to R97), and the round trip of an image through a high-precision
slot. Settles O27, O28, O29 and O47.
-/

namespace Sys2Proof.Machine

/-! ### The commands that complete -/

/-- Positive dimensions that fit are accepted (R91, R92). -/
theorem exists_imageDims_ok {cap : Nat} {w h : Word} (hw : 0 < w.toInt) (hh : 0 < h.toInt)
    (hcap : w.toInt * h.toInt ≤ cap) :
    ∃ W H : Nat, imageDims cap w h = .ok (W, H) ∧ (W : Int) = w.toInt ∧ (H : Int) = h.toInt := by
  have hW := Int.toNat_of_nonneg hw.le
  have hH := Int.toNat_of_nonneg hh.le
  exact ⟨_, _, imageDims_ok_iff.mpr ⟨hw, hh, hcap, hW, hH⟩, hW, hH⟩

section
variable {s : State}

theorem exec_create_of_dims (d : HSlot) {W H : Nat} (h : imageDims s.maxPix s.width s.height = .ok (W, H)) :
    exec (.create d) s = .next (s.setHB d ⟨W, H, List.replicate (3 * (W * H)) fZero⟩) := by
  simp [exec, execCreate, h]

theorem exec_frompix_of_dims (d : HSlot) {a : PSlot} {W H : Nat}
    (h : imageDims s.maxPix (s.slot a).w (s.slot a).h = .ok (W, H)) :
    exec (.frompix d a) s = .next (s.setHB d ⟨W, H, (imageBytes s a (3 * (W * H))).map fOfU8⟩) := by
  simp [exec, execFrompix, h]

theorem exec_topix_of_valid (d : PSlot) {a : HSlot} (ha : (s.buf a).valid s.maxPix) (hw : (s.buf a).w ≠ 0) :
    exec (.topix d a) s = .next (s.setImage d (s.buf a).w (s.buf a).h ((s.buf a).px.map narrow8)) := by
  simp [exec, execTopix, sourceBuffer, hw, inBounds_of_valid ha hw]

end

/-! ### The pixels they write -/

/-- Every value of a slot is the one its coordinates name (R23). -/
theorem HBuf.getElem?_flat {b : HBuf} {x y : Nat} (c : Chan) (hlen : b.px.length = 3 * (b.w * b.h)) (hx : x < b.w)
    (hy : y < b.h) : b.px[3 * (y * b.w + x) + c.val]? = some (b.at x y c) := by
  have h := hlen ▸ flat_channel_lt c hx hy
  simp [HBuf.at, h]

theorem at_replicate_fZero {W H x y : Nat} (c : Chan) (hx : x < W) (hy : y < H) :
    (HBuf.mk W H (List.replicate (3 * (W * H)) fZero)).at x y c = fZero := by
  simp [HBuf.at, flat_channel_lt c hx hy]

theorem at_widened (s : State) (a : PSlot) {W H x y : Nat} (c : Chan) (hx : x < W) (hy : y < H) :
    (HBuf.mk W H ((imageBytes s a (3 * (W * H))).map fOfU8)).at x y c =
      fOfU8 (s.pixByte a (3 * (y * W + x) + c)) := by
  simp [HBuf.at, imageBytes_getElem? s a _ _ (flat_channel_lt c hx hy)]

/-- Settles O27: the dimensions pass both checks (R161, R162), so the slot is filled. -/
theorem createFillsWithZero : Obligations.CreateFillsWithZero := by
  intro s d hw hh hcap
  obtain ⟨W, H, hdims, hW, hH⟩ := exists_imageDims_ok hw hh hcap
  refine ⟨_, exec_create_of_dims d hdims, setHB_onlyHB .., ?_⟩
  rw [setHB_buf_self]
  exact ⟨hW, hH, List.length_replicate, fun _ _ => at_replicate_fZero⟩

/-- Settles O28: as for CREATE, with the bytes of the image read at the offsets of R52. -/
theorem frompixWidens : Obligations.FrompixWidens := by
  intro s d a hw hh hcap
  obtain ⟨W, H, hdims, hW, hH⟩ := exists_imageDims_ok hw hh hcap
  refine ⟨_, exec_frompix_of_dims d hdims, setHB_onlyHB .., ?_⟩
  rw [setHB_buf_self]
  exact ⟨hW, hH, by simp, fun _ _ => at_widened s a⟩

/-- Settles O29: a valid slot holds `3*W*H` values, so the image written is as long as the frame says. -/
theorem topixNarrows : Obligations.TopixNarrows := by
  intro s d a ha hw
  obtain ⟨hlen, -⟩ := inBounds_iff.mp (inBounds_of_valid ha hw)
  obtain ⟨hW, hH⟩ := dims_lt_of_valid ha
  refine ⟨_, exec_topix_of_valid d ha hw, ?_, ?_, ?_, fun x y c hx hy => ?_⟩
  · simpa [hlen] using setImage_onlyImage s d (s.buf a).w (s.buf a).h ((s.buf a).px.map narrow8)
  · simpa using Nat.mod_eq_of_lt hW
  · simpa using Nat.mod_eq_of_lt hH
  · have hin := flat_channel_lt c hx hy
    rw [setImage_pixByte, if_pos ⟨rfl, by rwa [List.length_map, hlen]⟩, List.getElem?_map,
      HBuf.getElem?_flat c hlen hx hy]
    rfl

/-! ### The round trip -/

/-- Narrowing undoes widening byte by byte. -/
theorem map_narrow8_map_fOfU8 (bytes : List Byte) : (bytes.map fOfU8).map narrow8 = bytes := by
  simp [Function.comp_def]

/-- A dimension accepted is written back to its register as it was. -/
theorem ofNat_of_toInt_eq {w : Word} {W : Nat} (h : (W : Int) = w.toInt) : BitVec.ofNat 32 W = w := by
  rw [← BitVec.ofInt_natCast, h, BitVec.ofInt_toInt]

/-- What FROMPIX writes meets the invariant of R22. -/
theorem widened_valid (s : State) (p : PSlot) {W H : Nat}
    (hdims : imageDims s.maxPix (s.slot p).w (s.slot p).h = .ok (W, H)) :
    (HBuf.mk W H ((imageBytes s p (3 * (W * H))).map fOfU8)).valid s.maxPix := by
  obtain ⟨hW, hH, hcap⟩ := imageDims_ok_nat hdims
  exact .inr ⟨hW, hH, hcap, by simp⟩

/-- TOPIX of the slot that a FROMPIX has just filled writes the bytes of the image it was filled from. -/
theorem exec_topix_after_frompix {s : State} (d : HSlot) {p : PSlot} (q : PSlot) {W H : Nat}
    (hdims : imageDims s.maxPix (s.slot p).w (s.slot p).h = .ok (W, H)) :
    ∃ t, exec (.frompix d p) s = .next t ∧
      exec (.topix q d) t = .next (t.setImage q W H (imageBytes s p (3 * (W * H)))) := by
  obtain ⟨hW, -, -⟩ := imageDims_ok_nat hdims
  refine ⟨_, exec_frompix_of_dims d hdims, ?_⟩
  rw [exec_topix_of_valid q, setHB_buf_self, map_narrow8_map_fOfU8]
  · rw [setHB_buf_self]
    exact widened_valid s p hdims
  · rw [setHB_buf_self]
    exact Nat.pos_iff_ne_zero.mp hW

/-- Settles O47: the image comes back, into its own slot or another. -/
theorem narrowAfterWiden : Obligations.NarrowAfterWiden := by
  intro s d p q hw hh hcap
  obtain ⟨W, H, hdims, hW, hH⟩ := exists_imageDims_ok hw hh hcap
  obtain ⟨t, hfrom, hto⟩ := exec_topix_after_frompix d q hdims
  refine ⟨t, _, hfrom, hto, ?_, ?_, fun o ho => ?_⟩
  · rw [setImage_slot_self, ofNat_of_toInt_eq hW]
  · rw [setImage_slot_self, ofNat_of_toInt_eq hH]
  · have ho' : o < 3 * (W * H) := by
      rw [← hW, ← hH] at ho
      exact_mod_cast ho
    rw [setImage_pixByte, if_pos ⟨rfl, by rwa [imageBytes_length]⟩, imageBytes_getElem? s p _ o ho', Option.getD_some]

end Sys2Proof.Machine
end

section
/-!
BLUR when it completes: the copy at radius 0 (R112), the mean over the window (R110, R114 to R118), the bounds of the
window (R115, R116) and the independence of the channels (R119). Settles O30, O31, O41 and O45.
-/

namespace Sys2Proof.Machine

/-! ### The command -/

/-- BLUR of a slot that holds a buffer, into another slot, answers a state that differs in that slot alone. -/
theorem exec_blur_of_valid {s : State} {d a : HSlot} (r : BitVec 16) (hd : d ≠ a) (ha : (s.buf a).valid s.maxPix)
    (hw : (s.buf a).w ≠ 0) : exec (.blur d a r) s = .next (s.setHB d (boxBlur (s.buf a) r.toNat)) := by
  simp [exec, execBlur, hd, sourceBuffer, hw, inBounds_of_valid ha hw]

theorem radius_toNat_ne_zero {r : BitVec 16} (hr : r ≠ 0) : r.toNat ≠ 0 :=
  fun h => hr (BitVec.eq_of_toNat_eq h)

/-- Settles O30. -/
theorem blurRadiusZeroCopies : Obligations.BlurRadiusZeroCopies := fun _ _ _ hd ha hw =>
  ⟨_, exec_blur_of_valid 0 hd ha hw, setHB_onlyHB .., setHB_buf_self ..⟩

/-- Settles O31: the table the engine builds satisfies the recurrence of R114. -/
theorem blurIsWindowMean : Obligations.BlurIsWindowMean := by
  intro s d a r hd hr ha hw
  have hr' := radius_toNat_ne_zero hr
  refine ⟨_, exec_blur_of_valid r hd ha hw, setHB_onlyHB .., ?_⟩
  rw [setHB_buf_self]
  refine ⟨boxBlur_w .., boxBlur_h .., ?_, fun c => ⟨satFun (s.buf a) c, satFun_isSat _ _, fun x y => ?_⟩⟩
  · rw [boxBlur_length _ _ hr', boxBlur_w, boxBlur_h]
  · exact boxBlur_at (s.buf a) r.toNat x y c hr'

/-! ### The window -/

/-- Settles O41: a side of the window is at most `2r + 1` and at most the side of the image, and the count is the
product of the two sides. -/
theorem windowIsClipped : Obligations.WindowIsClipped := by
  intro x y r w h hx hy
  dsimp only [windowAt, Window.count]
  refine ⟨by omega, by omega, rfl, Nat.mul_pos (Nat.succ_pos _) (Nat.succ_pos _), ?_, ?_, fun h1 h2 h3 h4 => ?_⟩
  · rw [pow_two]
    exact Nat.mul_le_mul (by omega) (by omega)
  · exact Nat.mul_le_mul (by omega) (by omega)
  · rw [pow_two]
    congr 1 <;> omega

/-! ### The channels -/

/-- A channel plane is the values of the channel at the coordinates of each flat index. -/
theorem channelPlane_eq_at (b : HBuf) (c : Chan) :
    channelPlane b c = ((List.range (b.w * b.h)).map fun k => b.at (k % b.w) (k / b.w) c).toArray := by
  simp only [channelPlane, HBuf.at, Nat.mul_comm _ b.w, Nat.div_add_mod]

/-- Buffers of one shape that agree in a channel have one plane of it. -/
theorem channelPlane_congr {b b' : HBuf} {c : Chan} (hw : b'.w = b.w) (hh : b'.h = b.h)
    (hat : ∀ x y, x < b.w → y < b.h → b'.at x y c = b.at x y c) : channelPlane b' c = channelPlane b c := by
  rw [channelPlane_eq_at, channelPlane_eq_at, hw, hh]
  congr 1
  refine List.map_congr_left fun k hk => ?_
  have hk := List.mem_range.mp hk
  have hpos : 0 < b.w := Nat.pos_of_mul_pos_right (Nat.zero_lt_of_lt hk)
  exact hat _ _ (Nat.mod_lt _ hpos) (Nat.div_lt_of_lt_mul hk)

/-- A channel of the blur is a function of the shape and of that channel's plane. -/
theorem boxBlur_at_congr {b b' : HBuf} {c : Chan} (r : Nat) (hw : b'.w = b.w) (hh : b'.h = b.h)
    (hat : ∀ x y, x < b.w → y < b.h → b'.at x y c = b.at x y c) {x y : Nat} (hx : x < b.w) (hy : y < b.h) :
    (boxBlur b' r).at x y c = (boxBlur b r).at x y c := by
  by_cases hr : r = 0
  · subst hr
    exact hat x y hx hy
  · have htable : satFun b' c = satFun b c := by
      unfold satFun
      rw [channelPlane_congr hw hh hat, hw, hh]
    rw [boxBlur_at b' r x y c hr (hw ▸ hx) (hh ▸ hy), boxBlur_at b r x y c hr hx hy, htable, hw, hh]

/-- Settles O45. -/
theorem channelsAreIndependent : Obligations.ChannelsAreIndependent := by
  intro s s' t t' d a r c ha ha' hd hw hw' hh' hat ht ht' x y hx hy
  obtain rfl := Host.Outcome.next.inj ((exec_blur_of_valid r hd ha hw).symm.trans ht)
  obtain rfl := Host.Outcome.next.inj ((exec_blur_of_valid r hd ha' (hw' ▸ hw)).symm.trans ht')
  rw [setHB_buf_self, setHB_buf_self]
  exact boxBlur_at_congr r.toNat hw' hh' hat hx hy

end Sys2Proof.Machine
end

section
/-!
BLUR of integer channel values (R13, R113, R121 (a), R122): while every intermediate stays within `2^53` in magnitude
every entry of the table is the exact sum up to its corner and the window sum is exact. Settles O42 and O43.
-/

namespace Sys2Proof.Machine

/-! ### Sums over rectangles -/

/-- The exact sum of `u` over the columns from `x0` to below `x1` and the rows from `y0` to below `y1`. -/
def rectSum (u : Nat → Nat → Int) (x0 x1 y0 y1 : Nat) : Int :=
  ∑ j ∈ Finset.Ico y0 y1, ∑ i ∈ Finset.Ico x0 x1, u i j

section
variable (u : Nat → Nat → Int)

@[simp] theorem rectSum_no_cols (x y0 y1 : Nat) : rectSum u x x y0 y1 = 0 := by simp [rectSum]

@[simp] theorem rectSum_no_rows (x0 x1 y : Nat) : rectSum u x0 x1 y y = 0 := by simp [rectSum]

@[simp] theorem rectSum_pixel (x y : Nat) : rectSum u x (x + 1) y (y + 1) = u x y := by simp [rectSum]

theorem rectSum_append_cols {x0 x1 x2 : Nat} (y0 y1 : Nat) (h01 : x0 ≤ x1) (h12 : x1 ≤ x2) :
    rectSum u x0 x1 y0 y1 + rectSum u x1 x2 y0 y1 = rectSum u x0 x2 y0 y1 := by
  simp only [rectSum, ← Finset.sum_add_distrib, Finset.sum_Ico_consecutive _ h01 h12]

theorem rectSum_append_rows (x0 x1 : Nat) {y0 y1 y2 : Nat} (h01 : y0 ≤ y1) (h12 : y1 ≤ y2) :
    rectSum u x0 x1 y0 y1 + rectSum u x0 x1 y1 y2 = rectSum u x0 x1 y0 y2 :=
  Finset.sum_Ico_consecutive _ h01 h12

/-- The recurrence of R114 without its subtraction. -/
theorem rectSum_recurrence (x y : Nat) :
    u x y + rectSum u 0 x 0 (y + 1) + rectSum u 0 (x + 1) 0 y =
      rectSum u 0 (x + 1) 0 (y + 1) + rectSum u 0 x 0 y := by
  rw [← rectSum_append_cols u 0 (y + 1) x.zero_le x.le_succ, ← rectSum_append_rows u x (x + 1) y.zero_le y.le_succ,
    ← rectSum_append_cols u 0 y x.zero_le x.le_succ, rectSum_pixel]
  ring

theorem rectSum_const (v : Int) (x0 x1 y0 y1 : Nat) :
    rectSum (fun _ _ => v) x0 x1 y0 y1 = v * ((x1 - x0) * (y1 - y0) : Nat) := by
  simp only [rectSum, Finset.sum_const, Nat.card_Ico, nsmul_eq_mul]
  push_cast
  ring

end

/-- A sum of values of magnitude at most `M` over a part of a `w` by `h` image. -/
theorem natAbs_rectSum_le {u : Nat → Nat → Int} {M w h x1 y1 : Nat} (hu : ∀ x y, x < w → y < h → (u x y).natAbs ≤ M)
    (x0 y0 : Nat) (hx : x1 ≤ w) (hy : y1 ≤ h) : (rectSum u x0 x1 y0 y1).natAbs ≤ M * (w * h) := by
  have hrow (j : Nat) (hj : j < h) : (∑ i ∈ Finset.Ico x0 x1, u i j).natAbs ≤ w * M := by
    calc (∑ i ∈ Finset.Ico x0 x1, u i j).natAbs ≤ ∑ i ∈ Finset.Ico x0 x1, (u i j).natAbs := Int.natAbs_sum_le _ _
      _ ≤ (Finset.Ico x0 x1).card • M := Finset.sum_le_card_nsmul _ _ _ fun i hi =>
          hu i j ((Finset.mem_Ico.mp hi).2.trans_le hx) hj
      _ ≤ w * M := Nat.mul_le_mul_right M (by rw [Nat.card_Ico]; omega)
  calc (rectSum u x0 x1 y0 y1).natAbs
      ≤ ∑ j ∈ Finset.Ico y0 y1, (∑ i ∈ Finset.Ico x0 x1, u i j).natAbs := Int.natAbs_sum_le _ _
    _ ≤ (Finset.Ico y0 y1).card • (w * M) := Finset.sum_le_card_nsmul _ _ _ fun j hj =>
        hrow j ((Finset.mem_Ico.mp hj).2.trans_le hy)
    _ ≤ h * (w * M) := Nat.mul_le_mul_right _ (by rw [Nat.card_Ico]; omega)
    _ = M * (w * h) := by ring

/-! ### Channels of integers -/

/-- Channel `c` of `b` holds the integers `u`, of magnitude at most `M`, and twice the sum of any part of the image
stays within the `2^53` up to which integers are exact (R13). -/
structure HBuf.IntChannel (b : HBuf) (c : Chan) (u : Nat → Nat → Int) (M : Nat) : Prop where
  value : ∀ x y, x < b.w → y < b.h → b.at x y c = fOfInt (u x y)
  bound : ∀ x y, x < b.w → y < b.h → (u x y).natAbs ≤ M
  room : M * (2 * (b.w * b.h)) ≤ 2 ^ 53

section
variable {b : HBuf} {c : Chan} {u : Nat → Nat → Int} {M : Nat} (hb : b.IntChannel c u M)
include hb

/-- Two sums over parts of the image stay within `2^53` together. -/
theorem HBuf.IntChannel.natAbs_rectSum_le {x1 y1 : Nat} (x0 y0 : Nat) (hx : x1 ≤ b.w) (hy : y1 ≤ b.h) :
    2 * (rectSum u x0 x1 y0 y1).natAbs ≤ 2 ^ 53 := by
  have hsum := Machine.natAbs_rectSum_le hb.bound x0 y0 hx hy
  have hroom := hb.room
  rw [Nat.mul_left_comm] at hroom
  omega

/-! ### The table -/

/-- The recurrence of R114 in exact sums: no intermediate leaves the integers that are exact. -/
theorem HBuf.IntChannel.rounded_recurrence {x y : Nat} (hx : x < b.w) (hy : y < b.h) :
    fsub (fadd (fadd (fOfInt (u x y)) (fOfInt (rectSum u 0 x 0 (y + 1)))) (fOfInt (rectSum u 0 (x + 1) 0 y)))
      (fOfInt (rectSum u 0 x 0 y)) = fOfInt (rectSum u 0 (x + 1) 0 (y + 1)) := by
  have hx1 : x + 1 ≤ b.w := hx
  have hy1 : y + 1 ≤ b.h := hy
  have hpixel := hb.natAbs_rectSum_le x y hx1 hy1
  have hleft := hb.natAbs_rectSum_le 0 0 hx.le hy1
  have hup := hb.natAbs_rectSum_le 0 0 hx1 hy.le
  have hdiagonal := hb.natAbs_rectSum_le 0 0 hx.le hy.le
  have hcorner := hb.natAbs_rectSum_le 0 0 hx1 hy1
  rw [rectSum_pixel] at hpixel
  have hrec := rectSum_recurrence u x y
  rw [fadd_fOfInt _ _ (by omega) (by omega), fadd_fOfInt _ _ (by omega) (by omega),
    fsub_fOfInt _ _ (by omega) (by omega), hrec, add_sub_cancel_right]

/-- The exact sums up to each corner satisfy the rounded recurrence; a term out of range is an empty sum. -/
theorem HBuf.IntChannel.isSat_exact : IsSat b c fun x y => fOfInt (rectSum u 0 (x + 1) 0 (y + 1)) := by
  intro x y hx hy
  have hzero : fOfInt 0 = fZero := fOfInt_zero
  have hrec := hb.rounded_recurrence hx hy
  rw [hb.value x y hx hy]
  cases x with
  | zero => cases y <;> simpa [hzero] using hrec.symm
  | succ x => cases y <;> simpa [hzero] using hrec.symm

/-- The table of an integer channel holds the exact sums up to each corner (R113). -/
theorem HBuf.IntChannel.satFun_eq {x y : Nat} (hx : x < b.w) (hy : y < b.h) :
    satFun b c x y = fOfInt (rectSum u 0 (x + 1) 0 (y + 1)) :=
  (satFun_isSat b c).unique hb.isSat_exact y x hx hy

/-! ### The window sum -/

/-- Taking the left strip off a sum is exact. -/
theorem HBuf.IntChannel.fsub_cols {x0 x1 y1 : Nat} (hx : x0 ≤ x1) (hx1 : x1 ≤ b.w) (hy1 : y1 ≤ b.h) :
    fsub (fOfInt (rectSum u 0 x1 0 y1)) (fOfInt (rectSum u 0 x0 0 y1)) = fOfInt (rectSum u x0 x1 0 y1) := by
  have hwhole := hb.natAbs_rectSum_le 0 0 hx1 hy1
  have hstrip := hb.natAbs_rectSum_le 0 0 (hx.trans hx1) hy1
  rw [fsub_fOfInt _ _ (by omega) (by omega), ← rectSum_append_cols u 0 y1 (Nat.zero_le x0) hx, add_sub_cancel_left]

/-- Taking the top strip off a sum is exact; it leaves the window less the corner counted twice. -/
theorem HBuf.IntChannel.fsub_rows {x0 x1 y0 y1 : Nat} (hx : x0 ≤ x1) (hx1 : x1 ≤ b.w) (hy : y0 ≤ y1)
    (hy1 : y1 ≤ b.h) :
    fsub (fOfInt (rectSum u x0 x1 0 y1)) (fOfInt (rectSum u 0 x1 0 y0)) =
      fOfInt (rectSum u x0 x1 y0 y1 - rectSum u 0 x0 0 y0) := by
  have hwhole := hb.natAbs_rectSum_le x0 0 hx1 hy1
  have hstrip := hb.natAbs_rectSum_le 0 0 hx1 (hy.trans hy1)
  rw [fsub_fOfInt _ _ (by omega) (by omega), ← rectSum_append_rows u x0 x1 (Nat.zero_le y0) hy,
    ← rectSum_append_cols u 0 y0 (Nat.zero_le x0) hx]
  congr 1
  ring

/-- Adding the corner counted twice is exact. -/
theorem HBuf.IntChannel.fadd_corner {x0 x1 y0 y1 : Nat} (hx : x0 ≤ b.w) (hx1 : x1 ≤ b.w) (hy : y0 ≤ b.h)
    (hy1 : y1 ≤ b.h) :
    fadd (fOfInt (rectSum u x0 x1 y0 y1 - rectSum u 0 x0 0 y0)) (fOfInt (rectSum u 0 x0 0 y0)) =
      fOfInt (rectSum u x0 x1 y0 y1) := by
  have hwindow := hb.natAbs_rectSum_le x0 y0 hx1 hy1
  have hcorner := hb.natAbs_rectSum_le 0 0 hx hy
  rw [fadd_fOfInt _ _ (by omega) (by omega), sub_add_cancel]

/-- The window sum of R117 over the table of an integer channel is the exact sum over the window. A strip that is
skipped is an empty one. -/
theorem HBuf.IntChannel.satWindowSum_eq {v : Window} (hx : v.x0 ≤ v.x1) (hx1 : v.x1 < b.w) (hy : v.y0 ≤ v.y1)
    (hy1 : v.y1 < b.h) :
    satWindowSum (satFun b c) v = fOfInt (rectSum u v.x0 (v.x1 + 1) v.y0 (v.y1 + 1)) := by
  obtain ⟨x0, x1, y0, y1⟩ := v
  dsimp only at *
  have hx' : x0 ≤ x1 + 1 := by omega
  have hy' : y0 ≤ y1 + 1 := by omega
  have hcols := hb.fsub_cols hx' hx1 hy1
  have hrows := hb.fsub_rows hx' hx1 hy' hy1
  have hcorner := hb.fadd_corner (x0 := x0) (y0 := y0) (by omega) hx1 (by omega) hy1
  cases x0 with
  | zero =>
    cases y0 with
    | zero => simpa [satWindowSum] using hb.satFun_eq hx1 hy1
    | succ j =>
      simpa [satWindowSum, hb.satFun_eq hx1 hy1, hb.satFun_eq hx1 (show j < b.h by omega)] using hrows
  | succ i =>
    have hi : i < b.w := by omega
    cases y0 with
    | zero => simpa [satWindowSum, hb.satFun_eq hx1 hy1, hb.satFun_eq hi hy1] using hcols
    | succ j =>
      have hj : j < b.h := by omega
      simp [satWindowSum, hb.satFun_eq hx1 hy1, hb.satFun_eq hi hy1, hb.satFun_eq hx1 hj, hb.satFun_eq hi hj, hcols,
        hrows, hcorner]

/-- The blur of an integer channel is the one rounded quotient of the exact window sum (R121 (a)). -/
theorem HBuf.IntChannel.boxBlur_at {r x y : Nat} (hr : r ≠ 0) (hx : x < b.w) (hy : y < b.h) :
    (boxBlur b r).at x y c =
      fdiv (fOfInt (rectSum u (windowAt x y r b.w b.h).x0 ((windowAt x y r b.w b.h).x1 + 1)
        (windowAt x y r b.w b.h).y0 ((windowAt x y r b.w b.h).y1 + 1)))
        (fOfCount (windowAt x y r b.w b.h).count) := by
  obtain ⟨hx0, hx1, hxw, hy0, hy1, hyh⟩ := windowAt_bounds (r := r) hx hy
  rw [Machine.boxBlur_at b r x y c hr hx hy, hb.satWindowSum_eq (hx0.trans hx1) hxw (hy0.trans hy1) hyh]

end

/-! ### Images of bytes -/

theorem bytes_room {s : State} {b : HBuf} (hb : b.valid s.maxPix) (hw : b.w ≠ 0) :
    255 * (2 * (b.w * b.h)) ≤ 2 ^ 53 := by
  obtain ⟨-, hcap⟩ := inBounds_iff.mp (inBounds_of_valid hb hw)
  have hlimit : s.maxPix ≤ 2 ^ 30 := maxPix_le s
  omega

/-- Settles O42: a sum of bytes over an image of at most `2^30` pixels is exact. -/
theorem firstPassIsRoundedMean : Obligations.FirstPassIsRoundedMean := by
  intro s d a r c v hd hr ha hw hv
  refine ⟨_, exec_blur_of_valid r hd ha hw, fun x y hx hy => ?_⟩
  have hint : (s.buf a).IntChannel c (fun x y => v x y) 255 :=
    ⟨fun x y hx hy => (hv x y hx hy).2, fun x y hx hy => by simpa using (hv x y hx hy).1, bytes_room ha hw⟩
  rw [setHB_buf_self, hint.boxBlur_at (radius_toNat_ne_zero hr) hx hy]
  simp [rectSum, Finset.Ico_add_one_right_eq_Icc]

/-! ### Constant images -/

/-- The count of a window as a product of half-open sides. -/
theorem Window.count_eq {q : Window} (hx : q.x0 ≤ q.x1) (hy : q.y0 ≤ q.y1) :
    q.count = (q.x1 + 1 - q.x0) * (q.y1 + 1 - q.y0) := by
  rw [Window.count, Nat.sub_add_comm hx, Nat.sub_add_comm hy]

/-- A constant image of integers within the bound of R122 is a fixed point of the blur: the window sum is the integer
times the count. -/
theorem boxBlur_constant {cap : Nat} {b : HBuf} {v : Chan → Int} (r : Nat) (hb : b.valid cap) (hw : b.w ≠ 0)
    (hcap : cap ≤ 2 ^ 53) (hbound : ∀ c, (v c).natAbs * (2 * (b.w * b.h)) ≤ 2 ^ 53)
    (hat : ∀ x y (c : Chan), x < b.w → y < b.h → b.at x y c = fOfInt (v c)) : boxBlur b r = b := by
  by_cases hr : r = 0
  · subst hr
    exact boxBlur_zero b
  obtain ⟨hlen, hfit⟩ := inBounds_iff.mp (inBounds_of_valid hb hw)
  refine HBuf.ext_at (boxBlur_w b r) (boxBlur_h b r) ?_ hlen fun x y c hx hy => ?_
  · rw [boxBlur_length b r hr, boxBlur_w, boxBlur_h]
  rw [boxBlur_w] at hx
  rw [boxBlur_h] at hy
  have hint : b.IntChannel c (fun _ _ => v c) (v c).natAbs :=
    ⟨fun x y hx hy => hat x y c hx hy, fun _ _ _ _ => Nat.le_refl _, hbound c⟩
  obtain ⟨-, -, -, hpos, -, hcount, -⟩ := windowIsClipped x y r b.w b.h hx hy
  obtain ⟨hx0, hx1, -, hy0, hy1, -⟩ := windowAt_bounds (r := r) hx hy
  rw [hint.boxBlur_at hr hx hy, rectSum_const, ← Window.count_eq (hx0.trans hx1) (hy0.trans hy1),
    fdiv_fOfInt_mul _ _ hpos (hcount.trans (hfit.trans hcap)), hat x y c hx hy]
  calc (v c * (windowAt x y r b.w b.h).count).natAbs = (v c).natAbs * (windowAt x y r b.w b.h).count := by
        rw [Int.natAbs_mul, Int.natAbs_natCast]
    _ ≤ (v c).natAbs * (2 * (b.w * b.h)) := Nat.mul_le_mul_left _ (by omega)
    _ ≤ 2 ^ 53 := hbound c

/-- BLUR of a slot with a constant image of integers within the bound of R122 copies it. -/
theorem exec_blur_of_constant {s : State} {d a : HSlot} {v : Chan → Int} (r : BitVec 16) (hd : d ≠ a)
    (ha : (s.buf a).valid s.maxPix) (hw : (s.buf a).w ≠ 0)
    (hbound : ∀ c, (v c).natAbs * (2 * ((s.buf a).w * (s.buf a).h)) ≤ 2 ^ 53)
    (hat : ∀ x y (c : Chan), x < (s.buf a).w → y < (s.buf a).h → (s.buf a).at x y c = fOfInt (v c)) :
    ∃ t, exec (.blur d a r) s = .next t ∧ t.buf d = s.buf a := by
  have hlimit : s.maxPix ≤ 2 ^ 30 := maxPix_le s
  refine ⟨_, exec_blur_of_valid r hd ha hw, ?_⟩
  rw [setHB_buf_self, boxBlur_constant r.toNat ha hw (by omega) hbound hat]

/-- Settles O43: a byte on an image of at most `2^30` pixels is within the bound. -/
theorem constantImageIsFixed : Obligations.ConstantImageIsFixed := by
  refine ⟨fun s d a r v hd ha hw => exec_blur_of_constant r hd ha hw, ?_⟩
  intro s t d a p r v hd hw hh hcap hbytes hfrom
  obtain ⟨W, H, hdims, hW, hH⟩ := exists_imageDims_ok hw hh hcap
  obtain rfl := Host.Outcome.next.inj ((exec_frompix_of_dims a hdims).symm.trans hfrom)
  have hvalid := widened_valid s p hdims
  have hW0 : W ≠ 0 := by omega
  refine exec_blur_of_constant (v := fun c => (v c).toNat) r hd ?_ ?_ (fun c => ?_) fun x y c hx hy => ?_
  · rw [setHB_buf_self]
    exact hvalid
  · rw [setHB_buf_self]
    exact hW0
  · rw [setHB_buf_self]
    have hbyte := (v c).isLt
    exact (Nat.mul_le_mul_right _ (by rw [Int.natAbs_natCast]; omega)).trans (bytes_room hvalid hW0)
  · rw [setHB_buf_self] at hx hy ⊢
    have hk : ((y * W + x : Nat) : Int) < (s.slot p).w.toInt * (s.slot p).h.toInt := by
      rw [← hW, ← hH]
      exact_mod_cast flat_lt hx hy
    rw [at_widened s p c hx hy, hbytes _ c hk, fOfU8]

end Sys2Proof.Machine
end

section
/-!
The border cases of BLUR (R123): arithmetic with `+0.0` and with 1, which a 1x1 image is left with, and the window
that spans the whole image. Settles O44.
-/

namespace Sys2Proof.Machine

/-! ### Arithmetic with `+0.0` and with 1 -/

/-- A zero added to a value that is neither a NaN nor a zero, whichever of `fadd` and `fsub` adds it. -/
theorem fSum_zero_right {a z : Binary64} (nan : Binary64) (ha : fIsNaN a = false) (h0 : fMag a ≠ 0)
    (hz : fIsFinite z = true) (hz0 : fMag z = 0) : fSum nan a z = a := by
  rcases finite_or_inf ha with hfin | hinf
  · have hval : fVal a ≠ 0 := fun h => h0 (fVal_eq_zero_iff.mp h)
    have hsign : decide (fVal a < 0) = fSign a := by
      rw [Bool.eq_iff_iff, decide_eq_true_iff, fVal_neg_iff h0]
    have hmag : roundMag (fMag a) 1 = lowBits a := by
      simpa [fMag_eq] using roundMag_magOf (lowBits a) 1 ((fIsFinite_iff a).mp hfin).le Nat.one_pos
    rw [fSum_finite nan hfin hz, fVal_eq_zero_iff.mpr hz0, add_zero, if_neg hval, natAbs_fVal, hsign, hmag, fPack_eta]
  · exact fSum_inf_left nan hinf (not_nan_of_finite hz) fun h => absurd h (by simp [not_inf_of_finite hz])

theorem fadd_fZero {a : Binary64} (ha : fIsNaN a = false) (h0 : fMag a ≠ 0) : fadd a fZero = a :=
  fSum_zero_right _ ha h0 (by decide) (by decide)

theorem fsub_fZero {a : Binary64} (ha : fIsNaN a = false) (h0 : fMag a ≠ 0) : fsub a fZero = a :=
  fSum_zero_right _ ha h0 (by decide) (by decide)

theorem fIsFinite_of_fMag_eq_zero {a : Binary64} (h0 : fMag a = 0) : fIsFinite a = true := by
  unfold fMag at h0
  split at h0
  next hexp => simp [fIsFinite, hexp]
  next => exact absurd h0 (by positivity)

/-- Either zero plus `+0.0` is `+0.0` (R8). -/
theorem fadd_fZero_of_zero {a : Binary64} (h0 : fMag a = 0) : fadd a fZero = fZero := by
  have hval : fVal a + fVal fZero = 0 := by rw [fVal_eq_zero_iff.mpr h0, fVal_fZero, add_zero]
  have hsign : (fSign a && fSign fZero) = false := Bool.and_false _
  rw [fadd, fSum_of_fVal_add_eq_zero _ (fIsFinite_of_fMag_eq_zero h0) (by decide) hval, hsign,
    if_neg Bool.false_ne_true]

/-- A quotient by 1 is the dividend (R118). -/
theorem fdiv_fOfCount_one {a : Binary64} (ha : fIsNaN a = false) : fdiv a (fOfCount 1) = a := by
  obtain ⟨-, hcount, -⟩ := conversionsAreExact
  obtain ⟨hfin1, hsign1, hval1⟩ := hcount 1 (by decide) (by decide)
  have hmag1 : fMag (fOfCount 1) = fUnit := by simp [← natAbs_fVal, hval1]
  rcases finite_or_inf ha with hfin | hinf
  · have hmag : roundMag (fUnit * fMag a) fUnit = lowBits a := by
      rw [fMag_eq, Nat.mul_comm]
      exact roundMag_magOf _ _ ((fIsFinite_iff a).mp hfin).le fUnit_pos
    rw [fdiv_finite hfin hfin1 (by rw [hmag1]; exact fUnit_pos.ne'), hmag1, hmag, hsign1, Bool.bne_false,
      fPack_eta]
  · rw [fdiv_inf_finite hinf hfin1, fPack_bne_infBits hinf, hsign1, if_neg Bool.false_ne_true]

/-- What a 1x1 image goes through (R123 (a)): three terms out of range and the count 1. -/
theorem mean_of_single {a : Binary64} (ha : fIsNaN a = false) :
    fdiv (fsub (fadd (fadd a fZero) fZero) fZero) (fOfCount 1) = if fMag a = 0 then fZero else a := by
  by_cases h0 : fMag a = 0
  · have hzero : fsub fZero fZero = fZero := by decide
    rw [if_pos h0, fadd_fZero_of_zero h0, fadd_fZero_of_zero (a := fZero) (by decide), hzero,
      fdiv_fOfCount_one (by decide)]
  · rw [if_neg h0, fadd_fZero ha h0, fadd_fZero ha h0, fsub_fZero ha h0, fdiv_fOfCount_one ha]

/-! ### The window that spans the image -/

/-- A radius that reaches across the image in both directions makes every window the whole image (R125). -/
theorem windowAt_whole {x y r w h : Nat} (hx : x < w) (hy : y < h) (hw : w - 1 ≤ r) (hh : h - 1 ≤ r) :
    windowAt x y r w h = ⟨0, w - 1, 0, h - 1⟩ := by
  simp only [windowAt, Window.mk.injEq]
  omega

theorem count_whole {w h : Nat} (hw : 0 < w) (hh : 0 < h) : (Window.mk 0 (w - 1) 0 (h - 1)).count = w * h := by
  simp only [Window.count, Nat.sub_zero, Nat.sub_add_cancel hw, Nat.sub_add_cancel hh]

theorem boxBlur_at_whole {b : HBuf} (c : Chan) {r x y : Nat} (hr : r ≠ 0) (hx : x < b.w) (hy : y < b.h)
    (hw : b.w - 1 ≤ r) (hh : b.h - 1 ≤ r) :
    (boxBlur b r).at x y c = fdiv (satFun b c (b.w - 1) (b.h - 1)) (fOfCount (b.w * b.h)) := by
  rw [boxBlur_at b r x y c hr hx hy, windowAt_whole hx hy hw hh, count_whole (by omega) (by omega)]
  rfl

/-- Settles O44: every radius spans a 1x1 image, whose table has the one entry that `mean_of_single` divides. -/
theorem borderProperties : Obligations.BorderProperties := by
  intro s d a r c hd hr ha hw
  have hr' := radius_toNat_ne_zero hr
  refine ⟨_, exec_blur_of_valid r hd ha hw, ?_⟩
  rw [setHB_buf_self]
  refine ⟨fun hw1 hh1 hnan => ?_, fun hwr hhr => ⟨satFun (s.buf a) c, satFun_isSat _ _, fun x y hx hy => ?_⟩⟩
  · have hx : 0 < (s.buf a).w := by omega
    have hy : 0 < (s.buf a).h := by omega
    rw [boxBlur_at_whole c hr' hx hy (by omega) (by omega), hw1, hh1, satFun_isSat _ _ 0 0 hx hy]
    exact mean_of_single hnan
  · exact boxBlur_at_whole c hr' hx hy hwr hhr

end Sys2Proof.Machine
end

section
/-!
The expansions of CHAIN and BANDS (R130, R131), and the isolation of chains (R135): a command that fills a
high-precision slot depends on no slot but those it reads. Settles O7 and O48.
-/

namespace Sys2Proof.Machine

/-- Settles O7: the expansions are computed; that of CHAIN is the same for every pair of slots. -/
theorem pseudoInstructionWords : Obligations.PseudoInstructionWords := by
  refine ⟨?worked, fun e o p r _ => rfl, ?table⟩
  case worked => decide
  case table => decide

/-! ### Isolation -/

/-- Writes of different high-precision slots commute. -/
theorem setHB_comm {d e : HSlot} (h : d ≠ e) (s : State) (b x : HBuf) :
    (s.setHB e x).setHB d b = (s.setHB d b).setHB e x := by
  have hval : e.val ≠ d.val := fun hv => h (Fin.ext hv.symm)
  exact congrArg s.withBuffers (Vector.set_comm x b hval)

/-- Fault entry shows in `STATUS` (R168). -/
theorem raise_status_ne {s : State} (hf : faultFlag s.status = false) (e : CmdError) (w : Word) :
    (raise e w s).status ≠ s.status := by
  intro h
  rw [← h, raise_status, faultFlag_faultStatus] at hf
  cases hf

/-- A command that fills `HB[d]` without an error fills it with the same buffer after any write of a slot that it
does not read. -/
theorem exec_setHB_of_unread {i : Instr} {s t : State} {d : HSlot} (hd : hpDest i = some d)
    (hf : faultFlag s.status = false) (h : exec i s = .next t) (hst : t.status = s.status) :
    ∃ b, t = s.setHB d b ∧
      ∀ e x, e ∉ hpReads i → exec i (s.setHB e x) = .next ((s.setHB e x).setHB d b) := by
  cases i with
  | create d' =>
    obtain rfl := Option.some.inj hd
    rcases execCreate_cases d' s with ⟨err, -, hx⟩ | ⟨W, H, hdims, hx⟩ <;> cases hx.symm.trans h
    · exact absurd hst (raise_status_ne hf _ _)
    · exact ⟨_, rfl, fun e x _ => exec_create_of_dims (s := s.setHB e x) d' hdims⟩
  | frompix d' p =>
    obtain rfl := Option.some.inj hd
    rcases execFrompix_cases d' p s with ⟨err, -, hx⟩ | ⟨W, H, hdims, hx⟩ <;> cases hx.symm.trans h
    · exact absurd hst (raise_status_ne hf _ _)
    · exact ⟨_, rfl, fun e x _ => exec_frompix_of_dims (s := s.setHB e x) d' hdims⟩
  | blur d' a r =>
    obtain rfl := Option.some.inj hd
    rcases execBlur_cases d' a r s with ⟨-, hx⟩ | ⟨-, -, hx⟩ | ⟨-, -, -, hx⟩ | ⟨hda, hw, hb, hx⟩ <;>
      cases hx.symm.trans h
    · exact absurd hst (raise_status_ne hf _ _)
    · exact absurd hst (raise_status_ne hf _ _)
    · refine ⟨_, rfl, fun e x he => ?_⟩
      have hsame : (s.setHB e x).buf a = s.buf a := setHB_buf_ne s e a x fun hae => he (by simp [hpReads, hae])
      simp [exec, execBlur, sourceBuffer, hsame, hda, hw, hb]
  | topix => cases hd
  | diff => cases hd

/-- Settles O48: each command fills its slot with the same buffer in either order, and the two writes commute. -/
theorem disjointCommandsCommute : Obligations.DisjointCommandsCommute := by
  intro s t u i j di dj hi hj hne hij hji hf ht hts hu hus
  obtain ⟨b, rfl, hib⟩ := exec_setHB_of_unread hi hf ht hts
  obtain ⟨c, rfl, hjc⟩ := exec_setHB_of_unread hj hf hu hus
  refine ⟨_, hjc di b hij, ?_⟩
  rw [hib dj c hji, setHB_comm hne]

end Sys2Proof.Machine
end

section
/-!
BANDS on a constant image (R137): every slot a chain has written holds the widened image, a fixed point of the blur,
and every difference of two such slots is an all-zero image. Settles O49.
-/

namespace Sys2Proof.Machine

/-! ### The difference of equal buffers -/

theorem fsub_self_of_finite {x : Binary64} (hx : fIsFinite x = true) : fsub x x = fZero := by
  have hval : fVal x + fVal (fNeg x) = 0 := by rw [fVal_fNeg, add_neg_cancel]
  have hsign : (fSign x && fSign (fNeg x)) = false := by rw [fSign_fNeg, Bool.and_not_self]
  rw [fsub, fSum_of_fVal_add_eq_zero _ hx (fIsFinite_fNeg hx) hval, hsign, if_neg Bool.false_ne_true]

theorem quantize_fZero : quantize fZero = 0 := by decide +kernel

/-- Two equal buffers of finite values have the difference 0 in every byte (R142). -/
theorem zipWith_diffByte_self {px : List Binary64} (h : ∀ x ∈ px, fIsFinite x = true) :
    List.zipWith diffByte px px = List.replicate px.length 0 := by
  rw [List.zipWith_self, List.map_eq_replicate_iff]
  intro x hx
  rw [diffByte, fsub_self_of_finite (h x hx), quantize_fZero]

theorem exec_diff_of_equal {s : State} (d : PSlot) {a b : HSlot} (ha : (s.buf a).valid s.maxPix)
    (hw : (s.buf a).w ≠ 0) (hab : s.buf b = s.buf a) :
    exec (.diff d a b) s = .next (s.setImage d (s.buf a).w (s.buf a).h
      (List.zipWith diffByte (s.buf a).px (s.buf a).px)) := by
  simp [exec, execDiff, sourcePair, hab, hw, inBounds_of_valid ha hw]

/-! ### The image and its bands -/

/-- The image in `PB[0]` is accepted by FROMPIX, which widens it to `b`, and no blur changes `b`. -/
structure FlatImage (b : HBuf) (t : State) : Prop where
  dims : imageDims t.maxPix (t.slot 0).w (t.slot 0).h = .ok (b.w, b.h)
  widened : b = ⟨b.w, b.h, (imageBytes t 0 (3 * (b.w * b.h))).map fOfU8⟩
  fixed : ∀ r : BitVec 16, boxBlur b r.toNat = b

/-- `PB[p]` holds the all-zero image of the shape of `b`. -/
structure ZeroImage (b : HBuf) (p : PSlot) (t : State) : Prop where
  w : (t.slot p).w = BitVec.ofNat 32 b.w
  h : (t.slot p).h = BitVec.ofNat 32 b.h
  bytes : ∀ o, o < 3 * (b.w * b.h) → t.pixByte p o = 0

section
variable {b : HBuf} {t : State}

theorem FlatImage.valid (hb : FlatImage b t) : b.valid t.maxPix := by
  rw [hb.widened]
  exact widened_valid t 0 hb.dims

theorem FlatImage.nonempty (hb : FlatImage b t) : b.w ≠ 0 :=
  Nat.pos_iff_ne_zero.mp (imageDims_ok_nat hb.dims).1

theorem FlatImage.length_px (hb : FlatImage b t) : b.px.length = 3 * (b.w * b.h) :=
  (inBounds_iff.mp (inBounds_of_valid hb.valid hb.nonempty)).1

theorem FlatImage.finite (hb : FlatImage b t) : ∀ x ∈ b.px, fIsFinite x = true := by
  rw [hb.widened]
  intro x hx
  obtain ⟨byte, -, rfl⟩ := List.mem_map.mp hx
  obtain ⟨hbytes, -⟩ := conversionsAreExact
  obtain ⟨hfinite, -⟩ := hbytes byte
  exact hfinite

/-- A write to another pixel slot leaves the image in `PB[0]`. -/
theorem FlatImage.setImage (hb : FlatImage b t) {d : PSlot} (hd : d ≠ 0) (w h : Nat) (bytes : List Byte) :
    FlatImage b (t.setImage d w h bytes) where
  dims := by
    rw [setImage_slot_ne t d 0 w h bytes hd.symm]
    exact hb.dims
  widened := by
    have hbyte (o : Nat) : (t.setImage d w h bytes).pixByte 0 o = t.pixByte 0 o := by
      rw [setImage_pixByte, if_neg fun hp => hd hp.1.symm]
    rw [imageBytes, funext hbyte]
    exact hb.widened
  fixed := hb.fixed

theorem zeroImage_setImage_self (d : PSlot) :
    ZeroImage b d (t.setImage d b.w b.h (List.replicate (3 * (b.w * b.h)) 0)) where
  w := by rw [setImage_slot_self]
  h := by rw [setImage_slot_self]
  bytes o ho := by simp [setImage_pixByte, ho]

theorem ZeroImage.setImage_of_ne {p d : PSlot} (hz : ZeroImage b p t) (hp : p ≠ d) (w h : Nat)
    (bytes : List Byte) : ZeroImage b p (t.setImage d w h bytes) where
  w := by rw [setImage_slot_ne t d p w h bytes hp, hz.w]
  h := by rw [setImage_slot_ne t d p w h bytes hp, hz.h]
  bytes o ho := by rw [setImage_pixByte, if_neg fun hpd => hp hpd.1, hz.bytes o ho]

end

/-! ### The progress of a program -/

/-- The slots of each kind that a program has written so far. -/
structure Progress where
  filled : List HSlot
  painted : List PSlot

/-- The progress after one more command. -/
def Progress.after (g : Progress) (i : Instr) : Progress :=
  ⟨(hpDest i).toList ++ g.filled, (pixDest i).toList ++ g.painted⟩

/-- The commands of a band pipeline that reads only `PB[0]` and slots already filled, and never writes `PB[0]`. -/
def Progress.admits (g : Progress) : Instr → Bool
  | .create _ => false
  | .frompix _ p => p == 0
  | .topix _ _ => false
  | .blur d a _ => d != a && g.filled.contains a
  | .diff p a b => p != 0 && g.filled.contains a && g.filled.contains b

/-- Each command of the list is admitted after those before it. -/
def Progress.admitsAll (g : Progress) : List Instr → Bool
  | [] => true
  | i :: l => g.admits i && (g.after i).admitsAll l

theorem wellFormed_of_admits {g : Progress} {i : Instr} (h : g.admits i = true) : i.wellFormed = true := by
  cases i with
  | blur d a r => exact (Bool.and_eq_true_iff.mp h).1
  | create | frompix | topix | diff => rfl

/-- A state in which a pipeline on the flat image `b` has made the progress `g` without an error: `status` is still
the word in `STATUS`, the slots filled hold `b`, and the images painted are all zero. -/
structure FlatState (b : HBuf) (status : Word) (g : Progress) (t : State) : Prop where
  status : t.status = status
  image : FlatImage b t
  filled : ∀ i ∈ g.filled, t.buf i = b
  painted : ∀ p ∈ g.painted, ZeroImage b p t

section
variable {b : HBuf} {status : Word} {g : Progress} {t : State} (ht : FlatState b status g t)
include ht

theorem FlatState.takeAccess (l : List Access) : FlatState b status g (t.takeAccess l) :=
  ⟨ht.status, ⟨ht.image.dims, ht.image.widened, ht.image.fixed⟩, ht.filled,
    fun p hp => ⟨(ht.painted p hp).w, (ht.painted p hp).h, (ht.painted p hp).bytes⟩⟩

theorem FlatState.fill (d : HSlot) : FlatState b status ⟨d :: g.filled, g.painted⟩ (t.setHB d b) where
  status := ht.status
  image := ⟨ht.image.dims, ht.image.widened, ht.image.fixed⟩
  filled i hi := by
    rw [setHB_buf]
    split
    next => rfl
    next hid => exact ht.filled i ((List.mem_cons.mp hi).resolve_left hid)
  painted p hp := ⟨(ht.painted p hp).w, (ht.painted p hp).h, (ht.painted p hp).bytes⟩

theorem FlatState.paint {d : PSlot} (hd : d ≠ 0) : FlatState b status ⟨g.filled, d :: g.painted⟩
    (t.setImage d b.w b.h (List.replicate (3 * (b.w * b.h)) 0)) where
  status := ht.status
  image := ht.image.setImage hd ..
  filled := ht.filled
  painted p hp := by
    by_cases hpd : p = d
    · subst hpd
      exact zeroImage_setImage_self p
    · exact (ht.painted p ((List.mem_cons.mp hp).resolve_left hpd)).setImage_of_ne hpd ..

theorem FlatState.exec_frompix (d : HSlot) : exec (.frompix d 0) t = .next (t.setHB d b) := by
  rw [exec_frompix_of_dims d ht.image.dims, ← ht.image.widened]

theorem FlatState.exec_blur {d a : HSlot} (r : BitVec 16) (hd : d ≠ a) (ha : a ∈ g.filled) :
    exec (.blur d a r) t = .next (t.setHB d b) := by
  have hbuf := ht.filled a ha
  rw [exec_blur_of_valid r hd (hbuf ▸ ht.image.valid) (hbuf ▸ ht.image.nonempty), hbuf, ht.image.fixed]

theorem FlatState.exec_diff (d : PSlot) {x y : HSlot} (hx : x ∈ g.filled) (hy : y ∈ g.filled) :
    exec (.diff d x y) t = .next (t.setImage d b.w b.h (List.replicate (3 * (b.w * b.h)) 0)) := by
  have hbuf := ht.filled x hx
  rw [exec_diff_of_equal d (hbuf ▸ ht.image.valid) (hbuf ▸ ht.image.nonempty) ((ht.filled y hy).trans hbuf.symm),
    hbuf, zipWith_diffByte_self ht.image.finite, ht.image.length_px]

/-- An admitted command completes without an error and makes its progress. -/
theorem FlatState.exec_of_admits {i : Instr} (hi : g.admits i = true) :
    ∃ u, exec i t = .next u ∧ u.todo = t.todo ∧ FlatState b status (g.after i) u := by
  cases i with
  | frompix d p =>
    obtain rfl : p = 0 := eq_of_beq hi
    exact ⟨_, ht.exec_frompix d, rfl, ht.fill d⟩
  | blur d a r =>
    obtain ⟨hd, ha⟩ : d ≠ a ∧ a ∈ g.filled := by simpa [Progress.admits] using hi
    exact ⟨_, ht.exec_blur r hd ha, rfl, ht.fill d⟩
  | diff d x y =>
    obtain ⟨⟨hd, hx⟩, hy⟩ : (d ≠ 0 ∧ x ∈ g.filled) ∧ y ∈ g.filled := by simpa [Progress.admits] using hi
    exact ⟨_, ht.exec_diff d hx hy, rfl, ht.paint hd⟩
  | create => cases hi
  | topix => cases hi

end

/-- A program of admitted commands runs to its end without an error and makes the progress of all of them. -/
theorem FlatState.runSteps_issueAll {b : HBuf} {status : Word} (hf : faultFlag status = false) (l : List Instr)
    {g : Progress} {t : State} (ht : FlatState b status g t) (htodo : t.todo = issueAll l)
    (hl : g.admitsAll l = true) :
    ∃ u, runSteps l.length t = .next u ∧ u.todo = [] ∧ FlatState b status (l.foldl Progress.after g) u := by
  induction l generalizing g t with
  | nil => exact ⟨t, rfl, htodo, ht⟩
  | cons i l ih =>
    obtain ⟨hi, hrest⟩ := Bool.and_eq_true_iff.mp hl
    have htaken := ht.takeAccess (issueAll l)
    obtain ⟨u, hx, hutodo, hu⟩ := htaken.exec_of_admits hi
    obtain ⟨v, hrun, hv⟩ := ih hu hutodo hrest
    have hissue := issue_of_decode (htaken.status ▸ hf) (decode_encode (wellFormed_of_admits hi))
    exact ⟨v, (runSteps_issue htodo (hissue.trans hx)).trans hrun, hv⟩

/-! ### BANDS -/

/-- Every command of BANDS reads what an earlier one has filled. -/
theorem admitsAll_bands : (Progress.mk [] []).admitsAll bands = true := by decide

/-- BANDS writes every pixel slot but `PB[0]`. -/
theorem painted_bands : ∀ p : PSlot, p ≠ 0 → p ∈ (bands.foldl Progress.after ⟨[], []⟩).painted := by decide

/-- A constant image of bytes is flat: its widened copy is a fixed point of the blur (R122). -/
theorem flatImage_of_constant {s : State} {v : Chan → Byte} (hw : 0 < (s.slot 0).w.toInt)
    (hh : 0 < (s.slot 0).h.toInt) (hcap : (s.slot 0).w.toInt * (s.slot 0).h.toInt ≤ s.maxPix)
    (hbytes : ∀ (k : Nat) (c : Chan), (k : Int) < (s.slot 0).w.toInt * (s.slot 0).h.toInt →
      s.pixByte 0 (3 * k + c) = v c) :
    ∃ b, FlatImage b s ∧ (b.w : Int) = (s.slot 0).w.toInt ∧ (b.h : Int) = (s.slot 0).h.toInt := by
  obtain ⟨W, H, hdims, hW, hH⟩ := exists_imageDims_ok hw hh hcap
  refine ⟨⟨W, H, (imageBytes s 0 (3 * (W * H))).map fOfU8⟩, ⟨hdims, rfl, fun r => ?_⟩, hW, hH⟩
  obtain ⟨-, hfixed⟩ := constantImageIsFixed
  obtain ⟨u, hblur, hu⟩ :=
    hfixed s _ 1 0 0 r v (by decide) hw hh hcap hbytes (exec_frompix_of_dims 0 hdims)
  rw [exec_blur_of_valid r (by decide), setHB_buf_self] at hblur
  · cases hblur
    simpa using hu
  · rw [setHB_buf_self]
    exact widened_valid s 0 hdims
  · rw [setHB_buf_self]
    exact Nat.pos_iff_ne_zero.mp (imageDims_ok_nat hdims).1

/-- Settles O49: the 27 commands are admitted one after another, and each output is an image they have painted. -/
theorem flatImageHasZeroBands : Obligations.FlatImageHasZeroBands := by
  intro s v hf hw hh hcap hbytes
  obtain ⟨b, hb, hW, hH⟩ := flatImage_of_constant hw hh hcap hbytes
  have hstart : FlatState b s.status ⟨[], []⟩ (s.withProgram (issueAll bands)) :=
    ⟨rfl, ⟨hb.dims, hb.widened, hb.fixed⟩, by simp, by simp⟩
  obtain ⟨t, hrun, htodo, ht⟩ := hstart.runSteps_issueAll hf bands rfl admitsAll_bands
  refine ⟨t, hrun, htodo, ht.status, fun p hp => ?_⟩
  obtain ⟨hpw, hph, hzero⟩ := ht.painted p (painted_bands p hp)
  refine ⟨hpw.trans (ofNat_of_toInt_eq hW), hph.trans (ofNat_of_toInt_eq hH), fun o ho => hzero o ?_⟩
  rw [← hW, ← hH] at ho
  exact_mod_cast ho

end Sys2Proof.Machine
end

section
/-!
The quantization `Q` (R142, R143): it is `narrow8`, applied to the value itself from -1.0 up and to the rounded sum
with 257.0 below, so its branches are read on exact values once for both. Settles O37, O38 and O39.
-/

namespace Sys2Proof.Machine

/-! ### The floor against an integer bound -/

/-- A value and its floor lie on the same side of every integer, infinities among them. -/
theorem mul_fUnit_le_fVal_ffloor_iff (n : Int) (x : Binary64) :
    n * fUnit ≤ fVal (ffloor x) ↔ n * fUnit ≤ fVal x := by
  have hu : (0 : Int) < fUnit := by exact_mod_cast fUnit_pos
  cases hx : fIsFinite x
  case false => rw [ffloor_eq_self (.inl hx)]
  case true =>
    obtain ⟨-, hval⟩ := ffloor_spec hx
    rw [hval, mul_le_mul_iff_left₀ hu, Int.le_ediv_iff_mul_le hu]

theorem fVal_ffloor_neg_iff (x : Binary64) : fVal (ffloor x) < 0 ↔ fVal x < 0 := by
  have h := mul_fUnit_le_fVal_ffloor_iff 0 x
  rw [zero_mul] at h
  omega

theorem not_nan_ffloor {x : Binary64} (hx : fIsNaN x = false) : fIsNaN (ffloor x) = false := by
  cases hfin : fIsFinite x
  case false => rwa [ffloor_eq_self (.inl hfin)]
  case true => exact not_nan_of_finite (ffloor_spec hfin).1

/-! ### The narrowing by the value itself -/

section
variable {x : Binary64} (hx : fIsNaN x = false)
include hx

theorem narrow8_of_neg (h : fVal x < 0) : narrow8 x = 0 :=
  narrow8_of_floor_neg hx (not_nan_ffloor hx) ((fVal_ffloor_neg_iff x).mpr h)

theorem narrow8_of_255_le (h : 255 * (fUnit : Int) ≤ fVal x) : narrow8 x = 255 :=
  narrow8_of_255_le_floor hx (not_nan_ffloor hx) ((mul_fUnit_le_fVal_ffloor_iff 255 x).mpr h)

/-- The clamp of R96 read on the value, its two tests in the order of R142. -/
theorem narrow8_eq_ite : narrow8 x =
    if 255 * (fUnit : Int) ≤ fVal x then 255 else if fVal x < 0 then 0 else u8OfF (ffloor x) := by
  have hfloor255 := mul_fUnit_le_fVal_ffloor_iff 255 x
  have hfloor0 := fVal_ffloor_neg_iff x
  split
  next hbig => exact narrow8_of_255_le hx hbig
  next hbig =>
    split
    next hneg => exact narrow8_of_neg hx hneg
    next hneg => exact narrow8_of_floor_in_range hx (not_nan_ffloor hx) (by omega) (by omega)

theorem finite_of_natAbs_fVal_lt (h : (fVal x).natAbs < 255 * fUnit) : fIsFinite x = true := by
  refine (finite_or_inf hx).resolve_right fun hinf => ?_
  have hmag := fMag_lt_of_finite_of_inf (a := f255) (by decide) hinf
  rw [fMag_f255, ← natAbs_fVal x] at hmag
  exact hmag.not_gt h

theorem toNat_narrow8_of_in_range (h0 : 0 ≤ fVal x) (h : fVal x < 255 * fUnit) :
    ((narrow8 x).toNat : Int) = fVal x / fUnit := by
  have hu : (0 : Int) < fUnit := by exact_mod_cast fUnit_pos
  have hfin := finite_of_natAbs_fVal_lt hx (by omega)
  have hq0 : 0 ≤ fVal x / fUnit := Int.ediv_nonneg h0 hu.le
  have hq : fVal x / fUnit < 255 := Int.ediv_lt_of_lt_mul hu h
  rw [narrow8_of_finite hfin, max_eq_right hq0, min_eq_right hq.le]

end

/-! ### The two halves of `Q` -/

theorem quantize_of_nan {v : Binary64} (h : fIsNaN v = true) : quantize v = 0 := by
  simp [quantize, fge, flt, h]

/-- The sum with 257.0 is a NaN only where the value is one. -/
theorem not_nan_fadd_f257 {v : Binary64} (hv : fIsNaN v = false) : fIsNaN (fadd v f257) = false := by
  rcases finite_or_inf hv with hfin | hinf
  · have hsum : NearestEven (fadd v f257) _ 1 := nearestEven_fSum _ hfin (by decide)
    cases hs : fIsFinite (fadd v f257)
    · exact not_nan_of_inf (hsum.infinite hs)
    · exact not_nan_of_finite hs
  · obtain ⟨habsorb, -⟩ := operations_inf_finite hinf (b := f257) (by decide)
    rwa [habsorb]

section
variable {v : Binary64} (hv : fIsNaN v = false)
include hv

/-- Branches 1, 3 and 4 of R142: from -1.0 up `Q` narrows the value itself. -/
theorem quantize_of_fMinusOne_le (h : -(fUnit : Int) ≤ fVal v) : quantize v = narrow8 v := by
  rw [quantize, narrow8_eq_ite hv, fge_f255 hv, flt_fMinusOne hv, flt_fZero hv, fge_fZero hv]
  simp only [decide_eq_true_eq, if_neg h.not_gt]
  rcases lt_or_ge (fVal v) 0 with hneg | hnonneg
  · simp only [if_pos hneg]
  · rw [if_pos hnonneg]

/-- Branch 2 of R142: below -1.0 `Q` narrows the rounded sum with 257.0. -/
theorem quantize_of_lt_fMinusOne (h : fVal v < -(fUnit : Int)) : quantize v = narrow8 (fadd v f257) := by
  have hv2 := not_nan_fadd_f257 hv
  have hsmall : ¬255 * (fUnit : Int) ≤ fVal v := by omega
  rw [quantize, narrow8_eq_ite hv2, fge_f255 hv, flt_fMinusOne hv]
  simp only [decide_eq_true_eq, if_neg hsmall, if_pos h, fge_f255 hv2, flt_fZero (not_nan_ffloor hv2),
    fVal_ffloor_neg_iff]

end

/-- Settles O37: on each side of -1.0, the three ranges of the value that is narrowed. -/
theorem quantizeBranches : Obligations.QuantizeBranches := by
  refine fun v => ⟨quantize_of_nan, fun hv => ⟨fun h => ?_, fun h1 h0 => ?_, fun h0 h => ?_, fun hlow => ?_⟩⟩
  · rw [quantize_of_fMinusOne_le hv (by omega), narrow8_of_255_le hv h]
  · rw [quantize_of_fMinusOne_le hv h1, narrow8_of_neg hv h0]
  · rw [quantize_of_fMinusOne_le hv (by omega), toNat_narrow8_of_in_range hv h0 h]
  · have hv2 := not_nan_fadd_f257 hv
    rw [quantize_of_lt_fMinusOne hv hlow]
    exact ⟨narrow8_of_255_le hv2, narrow8_of_neg hv2, toNat_narrow8_of_in_range hv2⟩

/-! ### The wrap on exact sums -/

/-- Rounding to a finite value does not pass below a finite value. -/
theorem NearestEven.le_fVal {x y : Binary64} {n : Int} (h : NearestEven x n 1) (hx : fIsFinite x = true)
    (hy : fIsFinite y = true) (hyn : fVal y ≤ n) : fVal y ≤ fVal x := by
  have := h.nearest hx y hy
  omega

/-- Rounding keeps a negative sum of units negative: -1 unit is nearer to it than zero. -/
theorem NearestEven.fVal_neg {x : Binary64} {n : Int} (h : NearestEven x n 1) (hn : n < 0) : fVal x < 0 := by
  have hmag : fMag x ≠ 0 := fun h0 => by
    have hnear := h.nearest (fIsFinite_of_fMag_eq_zero h0) (fPack true 1) (by decide)
    rw [fVal_eq_zero_iff.mpr h0, show fVal (fPack true 1) = -1 by decide] at hnear
    omega
  rw [fVal_neg_iff hmag, h.sign hn.ne, mul_one]
  exact hn

section
variable {v : Binary64} (hv : fIsFinite v = true)
include hv

theorem nearestEven_fadd_f257 : NearestEven (fadd v f257) (fVal v + 257 * fUnit) 1 :=
  fVal_f257 ▸ nearestEven_fSum _ hv (by decide)

theorem quantize_of_neg_two_le (h2 : -2 * (fUnit : Int) ≤ fVal v) (h1 : fVal v < -(fUnit : Int)) :
    quantize v = 255 := by
  have hsum := nearestEven_fadd_f257 hv
  have hbound : 256 * fUnit < overflowMag := by decide +kernel
  have hfin : fIsFinite (fadd v f257) = true := hsum.finite.mpr (by rw [Int.natAbs_one, mul_one]; omega)
  have hle := hsum.le_fVal hfin (y := f255) (by decide) (by rw [fVal_f255]; omega)
  rw [fVal_f255] at hle
  rw [quantize_of_lt_fMinusOne (not_nan_of_finite hv) h1, narrow8_of_255_le (not_nan_of_finite hfin) hle]

/-- An integer from -257 to -2 and 257 have an exact sum, from 0 to 255. -/
theorem quantize_of_int {n : Int} (hlo : -257 ≤ n) (hhi : n ≤ -2) (hn : fVal v = n * fUnit) :
    ((quantize v).toNat : Int) = n + 257 := by
  have hu : (0 : Int) < fUnit := by exact_mod_cast fUnit_pos
  have hlow : fVal v < -(fUnit : Int) := by
    have := Int.mul_le_mul_of_nonneg_right hhi hu.le
    omega
  have hexact : (n + 257).natAbs ≤ 2 ^ 53 := by omega
  have hsum : fadd v f257 = fOfInt (n + 257) :=
    fSum_ints _ hv (by decide) hn fVal_f257 fun _ => by rw [show fSign f257 = false by decide, Bool.and_false]
  rw [quantize_of_lt_fMinusOne (not_nan_of_finite hv) hlow, hsum, narrow8_of_finite (fIsFinite_fOfInt _ hexact),
    fVal_fOfInt _ hexact, Int.mul_ediv_cancel _ hu.ne']
  omega

theorem quantize_of_lt_neg_257 (h : fVal v < -257 * (fUnit : Int)) : quantize v = 0 := by
  have hnan := not_nan_of_finite hv
  have hneg := (nearestEven_fadd_f257 hv).fVal_neg (by omega)
  rw [quantize_of_lt_fMinusOne hnan (by omega), narrow8_of_neg (not_nan_fadd_f257 hnan) hneg]

end

/-- Settles O38: the rounded sum with 257.0 is at least 255, exact, or negative. -/
theorem quantizeWraps : Obligations.QuantizeWraps := fun _ hv =>
  ⟨quantize_of_neg_two_le hv, fun _ => quantize_of_int hv, quantize_of_lt_neg_257 hv⟩

/-- Settles O39: `Q` of the five patterns of R148, evaluated. -/
theorem quantizeBoundaryValues : Obligations.QuantizeBoundaryValues :=
  ⟨by decide +kernel, by decide +kernel, by decide +kernel, by decide +kernel, by decide +kernel⟩

end Sys2Proof.Machine
end

section
/-!
DIFF when it completes: the quantized difference byte by byte (R140, R141, R145), and the all-zero image of two equal
slots, whatever values they hold (R146). Settles O32 and O46.
-/

namespace Sys2Proof.Machine

/-! ### The command that completes -/

section
variable {s : State} {a b : HSlot}

theorem sourcePair_of_same_shape (hw : (s.buf a).w ≠ 0) (hbw : (s.buf b).w = (s.buf a).w)
    (hbh : (s.buf b).h = (s.buf a).h) : sourcePair s a b = .ok (s.buf a, s.buf b) := by
  simp [sourcePair, hw, hbw, hbh]

theorem exec_diff_of_valid (d : PSlot) (ha : (s.buf a).valid s.maxPix) (hb : (s.buf b).valid s.maxPix)
    (hw : (s.buf a).w ≠ 0) (hbw : (s.buf b).w = (s.buf a).w) (hbh : (s.buf b).h = (s.buf a).h) :
    exec (.diff d a b) s = .next (s.setImage d (s.buf a).w (s.buf a).h
      (List.zipWith diffByte (s.buf a).px (s.buf b).px)) := by
  simp [exec, execDiff, sourcePair_of_same_shape hw hbw hbh, inBounds_of_valid ha hw,
    inBounds_of_valid hb (hbw ▸ hw)]

end

/-! ### The bytes it writes -/

section
variable {small large : HBuf} (hlen : small.px.length = 3 * (small.w * small.h))
  (hlen' : large.px.length = 3 * (large.w * large.h)) (hw : large.w = small.w) (hh : large.h = small.h)
include hlen hlen' hw hh

theorem length_zipWith_diffByte :
    (List.zipWith diffByte small.px large.px).length = 3 * (small.w * small.h) := by
  rw [List.length_zipWith, hlen, hlen', hw, hh, Nat.min_self]

/-- Two slots of one shape hold the channel values of one pixel at one place (R52, R141). -/
theorem getElem?_zipWith_diffByte {x y : Nat} (c : Chan) (hx : x < small.w) (hy : y < small.h) :
    (List.zipWith diffByte small.px large.px)[3 * (y * small.w + x) + c.val]? =
      some (quantize (fsub (large.at x y c) (small.at x y c))) := by
  have hsmall := HBuf.getElem?_flat c hlen hx hy
  have hlarge := HBuf.getElem?_flat c hlen' (hw ▸ hx) (hh ▸ hy)
  rw [hw] at hlarge
  rw [List.getElem?_zipWith, hsmall, hlarge]
  rfl

end

/-- Settles O32: both slots hold `3*W*H` values in one order, so the bytes are the differences pixel by pixel. -/
theorem diffQuantizes : Obligations.DiffQuantizes := by
  intro s d a b ha hb hw hbw hbh
  obtain ⟨hlen, -⟩ := inBounds_iff.mp (inBounds_of_valid ha hw)
  obtain ⟨hlen', -⟩ := inBounds_iff.mp (inBounds_of_valid hb (hbw ▸ hw))
  obtain ⟨hW, hH⟩ := dims_lt_of_valid ha
  have hbytes := length_zipWith_diffByte hlen hlen' hbw hbh
  refine ⟨_, exec_diff_of_valid d ha hb hw hbw hbh, ?_, ?_, ?_, fun x y c hx hy => ?_⟩
  · exact hbytes ▸ setImage_onlyImage s d (s.buf a).w (s.buf a).h _
  · simpa using Nat.mod_eq_of_lt hW
  · simpa using Nat.mod_eq_of_lt hH
  · rw [setImage_pixByte, if_pos ⟨rfl, hbytes.symm ▸ flat_channel_lt c hx hy⟩,
      getElem?_zipWith_diffByte hlen hlen' hbw hbh c hx hy, Option.getD_some]

/-! ### The difference of a value and itself -/

/-- A finite value less itself is `+0.0`; an infinity or a NaN less itself is a NaN, which `Q` maps to 0 (R143). -/
theorem diffByte_self (x : Binary64) : diffByte x x = 0 := by
  rw [diffByte]
  cases hnan : fIsNaN x
  case true =>
    obtain ⟨-, hsub, -⟩ := operations_nan (b := x) (.inl hnan)
    exact quantize_of_nan hsub
  case false =>
    rcases finite_or_inf hnan with hfin | hinf
    · rw [fsub_self_of_finite hfin, quantize_fZero]
    · obtain ⟨-, hsame, -⟩ := operations_inf_inf hinf hinf
      exact quantize_of_nan (hsame rfl).2

/-- Settles O46: equal slots give a row of zeros as long as the image. -/
theorem diffOfEqualIsZero : Obligations.DiffOfEqualIsZero := by
  refine ⟨fun s d a b ha hw hab => ?_, fun _ => fsub_self_of_finite⟩
  obtain ⟨hlen, -⟩ := inBounds_iff.mp (inBounds_of_valid ha hw)
  have hzero : List.zipWith diffByte (s.buf a).px (s.buf a).px =
      List.replicate (3 * ((s.buf a).w * (s.buf a).h)) 0 := by
    rw [List.zipWith_self, List.map_eq_replicate_iff.mpr fun x _ => diffByte_self x, hlen]
  refine ⟨_, exec_diff_of_equal d ha hw hab, rfl, ?_⟩
  rw [hzero]
  exact (zeroImage_setImage_self d).bytes

end Sys2Proof.Machine
end

section
/-!
What a step, and a run of steps, comes down to: an access off the platform's bus, one after another.
-/

namespace Sys2Proof.Machine

/-- An access on the platform's bus that is answered is a host access of the engine, never its reset (R51, R54). -/
theorem perform_bus_next {a : Access} (ha : a.onBus = true) {s t : State} (h : perform a s = .next t) :
    ∃ b, b.onBus = false ∧ b ≠ .reset ∧ perform b s = .next t := by
  cases a with
  | busRead addr len =>
    rcases performBus_cases Config.busMap addr len 0 s with ⟨n, -, hx, -⟩ | ⟨p, o, -, hx, -⟩ | ⟨-, hx, -⟩
    · exact ⟨.regRead n, rfl, nofun, hx.symm.trans h⟩
    · exact ⟨.pixRead p o, rfl, nofun, hx.symm.trans h⟩
    · cases hx.symm.trans h
  | busWrite addr len v =>
    rcases performBus_cases Config.busMap addr len v s with ⟨n, -, -, hx⟩ | ⟨p, o, -, -, hx⟩ | ⟨-, -, hx⟩
    · exact ⟨.regWrite n v, rfl, nofun, hx.symm.trans h⟩
    · exact ⟨.pixWrite p o (v.setWidth 8), rfl, nofun, hx.symm.trans h⟩
    · cases hx.symm.trans h
  | _ => cases ha

/-- What a step that is answered does: nothing, or an access off the bus, which is a reset only if the host's is. -/
theorem step_next_cases {s t : State} (h : step s = .next t) :
    t = s ∨ ∃ a b rest, s.todo = a :: rest ∧ b.onBus = false ∧ (b = .reset → a = .reset) ∧
      perform b (s.takeAccess rest) = .next t := by
  cases htodo : s.todo with
  | nil => exact .inl (Host.Outcome.next.inj (h.symm.trans (step_nil htodo)))
  | cons a rest =>
    rw [step_cons htodo] at h
    cases hbus : a.onBus with
    | false => exact .inr ⟨a, a, rest, rfl, hbus, id, h⟩
    | true =>
      obtain ⟨b, hb, hne, hx⟩ := perform_bus_next hbus h
      exact .inr ⟨a, b, rest, rfl, hb, fun hreset => absurd hreset hne, hx⟩

/-- The first step of a run that is answered is answered. -/
theorem step_of_runSteps_succ {n : Nat} {s t : State} (h : runSteps (n + 1) s = .next t) :
    ∃ u, step s = .next u ∧ runSteps n u = .next t := by
  have hcore : Sys2Proof.core.step s = step s := rfl
  cases hs : step s with
  | next u => exact ⟨u, rfl, (runSteps_succ hs).symm.trans h⟩
  | fault r => simp [runSteps, Host.Core.run, hcore, hs] at h
  | refused r => simp [runSteps, Host.Core.run, hcore, hs] at h

end Sys2Proof.Machine
end

section
/-!
The record of an error names its cause (R166, R168): the one access that writes the record is the issue of a command,
and what it records is an error that the word issued can raise. Settles O25.
-/

namespace Sys2Proof.Machine

/-! ### Records that are consistent -/

theorem powerOn_recordConsistent (cap : BitVec 30) (epoch : Nat) (l : List Access) :
    (State.powerOn cap epoch l).recordConsistent := .inl ⟨rfl, rfl⟩

/-- Only `STATUS` and `FAULTCMD` decide whether the record is consistent. -/
theorem State.recordConsistent.congr {s t : State} (hs : s.recordConsistent)
    (hrecord : t.status = s.status ∧ t.faultcmd = s.faultcmd) : t.recordConsistent := by
  obtain ⟨hstatus, hfaultcmd⟩ := hrecord
  rw [State.recordConsistent, hstatus, hfaultcmd]
  exact hs

theorem raise_recordConsistent_of_error {w : Word} {x : Illegal} (hd : decode w = .error x) (s : State) :
    (raise .illegalCommand w s).recordConsistent :=
  .inr ⟨.illegalCommand, rfl, by rw [raise_faultcmd, hd]⟩

theorem raise_recordConsistent_of_canRaise {w : Word} {i : Instr} {e : CmdError} (hd : decode w = .ok i)
    (he : canRaise i e = true) (s : State) : (raise e w s).recordConsistent :=
  .inr ⟨e, rfl, by rw [raise_faultcmd, hd]; exact he⟩

/-! ### Every access keeps the record consistent -/

/-- A command records only errors it can raise, and without an error it leaves the record alone (R166). -/
theorem exec_keeps_recordConsistent {w : Word} {i : Instr} {s t : State} (hs : s.recordConsistent)
    (hd : decode w = .ok i) (h : exec i s = .next t) : t.recordConsistent := by
  rcases exec_next_cases h with ⟨e, rfl, he | ⟨-, hill⟩⟩ | ⟨d, b, -, rfl⟩ | ⟨d, W, H, bytes, -, rfl⟩
  · rw [encode_of_decode hd]
    exact raise_recordConsistent_of_canRaise hd he s
  · cases (wellFormed_of_decode hd).symm.trans hill
  · exact hs.congr ⟨rfl, rfl⟩
  · exact hs.congr ⟨rfl, rfl⟩

theorem issue_keeps_recordConsistent {w : Word} {s t : State} (hs : s.recordConsistent)
    (h : issue w s = .next t) : t.recordConsistent := by
  rcases issue_cases w s with ⟨-, hx⟩ | ⟨-, ⟨x, hd⟩, hx⟩ | ⟨-, i, hd, hx⟩
  · cases hx.symm.trans h
    exact hs
  · cases hx.symm.trans h
    exact raise_recordConsistent_of_error hd s
  · exact exec_keeps_recordConsistent hs hd (hx.symm.trans h)

/-- An access that is neither a command nor a reset leaves the record of an error alone (R39). -/
theorem perform_record {a : Access} {s t : State} (hbus : a.onBus = false) (hreset : a ≠ .reset)
    (hcmd : ∀ w, a ≠ .regWrite 0 w) (h : perform a s = .next t) :
    t.status = s.status ∧ t.faultcmd = s.faultcmd := by
  by_contra hne
  obtain ⟨-, w, -, ha, -⟩ := (perform_effect hbus hreset h).record_writer (not_and_or.mp hne)
  exact hcmd w ha

theorem perform_keeps_recordConsistent {a : Access} {s t : State} (hs : s.recordConsistent)
    (hbus : a.onBus = false) (h : perform a s = .next t) : t.recordConsistent := by
  by_cases hreset : a = .reset
  · subst hreset
    cases h
    exact powerOn_recordConsistent _ _ _
  by_cases hcmd : ∃ w, a = .regWrite 0 w
  · obtain ⟨w, rfl⟩ := hcmd
    exact issue_keeps_recordConsistent hs h
  · exact hs.congr (perform_record hbus hreset (not_exists.mp hcmd) h)

/-- Settles O25: reset clears the record, and the access of a step keeps it consistent. -/
theorem faultRecordNamesItsCause : Obligations.FaultRecordNamesItsCause := by
  refine ⟨powerOn_recordConsistent, fun s t hs h => ?_⟩
  rcases step_next_cases h with rfl | ⟨_, b, rest, -, hbus, -, hx⟩
  · exact hs
  · exact perform_keeps_recordConsistent (hs.congr (t := s.takeAccess rest) ⟨rfl, rfl⟩) hbus hx

end Sys2Proof.Machine
end

section
/-!
The fault is sticky until reset (R169): with `FAULT = 1` no access but reset writes the record of the error or a
high-precision slot. Settles O18.
-/

namespace Sys2Proof.Machine

/-- What a recorded fault protects is as it was: the record itself and every high-precision slot. -/
structure FaultKept (s t : State) : Prop where
  status : t.status = s.status
  faultcmd : t.faultcmd = s.faultcmd
  buffers : ∀ i : HSlot, t.buf i = s.buf i

theorem FaultKept.refl (s : State) : FaultKept s s := ⟨rfl, rfl, fun _ => rfl⟩

theorem FaultKept.trans {s t u : State} (h : FaultKept s t) (h' : FaultKept t u) : FaultKept s u where
  status := h'.status.trans h.status
  faultcmd := h'.faultcmd.trans h.faultcmd
  buffers i := (h'.buffers i).trans (h.buffers i)

/-- No access changes what the host goes on to do. -/
theorem Effect.todo {s t : State} {a : Access} (h : Effect s a t) : t.todo = s.todo := by
  cases h with
  | regWritten n v =>
    obtain ⟨-, -, -, -, -, -, htodo, -⟩ := regWrite_frame s n v
    exact htodo
  | _ => rfl

/-- With a fault recorded a command is ignored, and no other access but reset writes what the fault protects. -/
theorem perform_of_fault {a : Access} {s t : State} (hf : faultFlag s.status = true) (hbus : a.onBus = false)
    (hreset : a ≠ .reset) (h : perform a s = .next t) : FaultKept s t := by
  by_cases hcmd : ∃ w, a = .regWrite 0 w
  · obtain ⟨w, rfl⟩ := hcmd
    cases (issue_of_fault hf w).symm.trans h
    exact .refl s
  · obtain ⟨hstatus, hfaultcmd⟩ := perform_record hbus hreset (not_exists.mp hcmd) h
    refine ⟨hstatus, hfaultcmd, fun i => ?_⟩
    by_contra hne
    obtain ⟨w, -, ha, -⟩ := (perform_effect hbus hreset h).buf_writer hne
    exact hcmd ⟨w, ha⟩

theorem step_of_fault {s t : State} (hf : faultFlag s.status = true) (hreset : ∀ a ∈ s.todo, a ≠ .reset)
    (h : step s = .next t) : FaultKept s t ∧ ∀ a ∈ t.todo, a ≠ .reset := by
  rcases step_next_cases h with rfl | ⟨a, b, rest, htodo, hbus, hba, hx⟩
  · exact ⟨.refl t, hreset⟩
  · rw [htodo, List.forall_mem_cons] at hreset
    obtain ⟨ha, hrest⟩ := hreset
    have hb : b ≠ .reset := fun hb => ha (hba hb)
    have hkept : FaultKept (s.takeAccess rest) t := perform_of_fault hf hbus hb hx
    refine ⟨⟨hkept.status, hkept.faultcmd, hkept.buffers⟩, ?_⟩
    rw [(perform_effect hbus hb hx).todo]
    exact hrest

theorem runSteps_of_fault (n : Nat) {s t : State} (hf : faultFlag s.status = true)
    (hreset : ∀ a ∈ s.todo, a ≠ .reset) (h : runSteps n s = .next t) : FaultKept s t := by
  induction n generalizing s with
  | zero =>
    cases h
    exact .refl _
  | succ n ih =>
    obtain ⟨u, hu, hrun⟩ := step_of_runSteps_succ h
    obtain ⟨hkept, hreset'⟩ := step_of_fault hf hreset hu
    exact hkept.trans (ih (hkept.status ▸ hf) hreset' hrun)

theorem faultFlag_platformReset (s : State) : faultFlag (platformReset s).status = false := by
  rw [platformReset, powerOn_status]
  decide

theorem not_successful_of_fault {s : State} (hf : faultFlag s.status = true) : ¬s.successful :=
  fun ⟨_, hclear⟩ => Bool.false_ne_true (hclear.symm.trans hf)

/-- Settles O18: a run by induction on its steps, the single accesses by what each does in any state. -/
theorem faultIsSticky : Obligations.FaultIsSticky := by
  refine ⟨fun n s t hf hreset h => ?run, fun s hf => ?accesses⟩
  case run =>
    obtain ⟨hstatus, hfaultcmd, hbuf⟩ := runSteps_of_fault n hf hreset h
    exact ⟨hstatus, hfaultcmd, hbuf⟩
  case accesses =>
    exact ⟨issue_of_fault hf, fun n v hn => perform_regWrite_of_ne hn v s, fun _ _ _ => rfl, fun _ => rfl,
      fun _ _ => rfl, ⟨_, rfl, faultFlag_platformReset s⟩, not_successful_of_fault hf⟩

end Sys2Proof.Machine
end

section
/-!
The errors of the commands: which operands raise each (R161 to R165), and what fault entry writes (R168). Settles O19,
O20, O21, O22 and O17.
-/

namespace Sys2Proof.Machine

/-- Settles O17. -/
theorem faultEntry : Obligations.FaultEntry := raise_faultEntered

/-- Settles O19: the sign of the dimensions is tested before the size. -/
theorem invalidDimensionRaised : Obligations.InvalidDimensionRaised := fun _ d _ =>
  ⟨fun h => ⟨_, exec_create_of_not_pos d h, raise_faultEntered _ _ _⟩,
    fun h => ⟨_, exec_frompix_of_not_pos d h, raise_faultEntered _ _ _⟩⟩

/-! ### AllocationFailure -/

/-- The record tells the error that was raised. -/
theorem eq_of_errField_raise {e f : CmdError} {c : Word} {s : State}
    (herr : errField (raise e c s).status = errorCode f) : e = f := by
  rw [raise_status, errField_faultStatus] at herr
  exact errorCode_injective herr

section
variable {cap : Nat} {w h : Word}

theorem imageDims_of_too_large (hw : 0 < w.toInt) (hh : 0 < h.toInt) (hcap : (cap : Int) < w.toInt * h.toInt) :
    imageDims cap w h = .error .allocationFailure :=
  imageDims_error_iff.mpr (.inr ⟨rfl, hw, hh, hcap⟩)

/-- Dimensions that make a command record `AllocationFailure` are positive and too large. -/
theorem too_large_of_errField {e : CmdError} {c : Word} {s : State} (hd : imageDims cap w h = .error e)
    (herr : errField (raise e c s).status = errorCode .allocationFailure) :
    0 < w.toInt ∧ 0 < h.toInt ∧ (cap : Int) < w.toInt * h.toInt := by
  cases eq_of_errField_raise herr
  rcases imageDims_error_iff.mp hd with ⟨he, -⟩ | ⟨-, hlarge⟩
  · cases he
  · exact hlarge

end

section
variable {s t : State}

theorem exec_create_of_too_large (d : HSlot) (hw : 0 < s.width.toInt) (hh : 0 < s.height.toInt)
    (hcap : (s.maxPix : Int) < s.width.toInt * s.height.toInt) :
    exec (.create d) s = .next (raise .allocationFailure (encode (.create d)) s) := by
  simp [exec, execCreate, imageDims_of_too_large hw hh hcap]

theorem exec_frompix_of_too_large (d : HSlot) {a : PSlot} (hw : 0 < (s.slot a).w.toInt)
    (hh : 0 < (s.slot a).h.toInt) (hcap : (s.maxPix : Int) < (s.slot a).w.toInt * (s.slot a).h.toInt) :
    exec (.frompix d a) s = .next (raise .allocationFailure (encode (.frompix d a)) s) := by
  simp [exec, execFrompix, imageDims_of_too_large hw hh hcap]

theorem too_large_of_exec_create {d : HSlot} (hf : faultFlag s.status = false)
    (hx : exec (.create d) s = .next t) (hft : faultFlag t.status = true)
    (herr : errField t.status = errorCode .allocationFailure) :
    0 < s.width.toInt ∧ 0 < s.height.toInt ∧ (s.maxPix : Int) < s.width.toInt * s.height.toInt := by
  rcases execCreate_cases d s with ⟨e, hd, hx'⟩ | ⟨W, H, -, hx'⟩
  · cases hx'.symm.trans hx
    exact too_large_of_errField hd herr
  · cases hx'.symm.trans hx
    cases hf.symm.trans hft

theorem too_large_of_exec_frompix {d : HSlot} {a : PSlot} (hf : faultFlag s.status = false)
    (hx : exec (.frompix d a) s = .next t) (hft : faultFlag t.status = true)
    (herr : errField t.status = errorCode .allocationFailure) :
    0 < (s.slot a).w.toInt ∧ 0 < (s.slot a).h.toInt ∧
      (s.maxPix : Int) < (s.slot a).w.toInt * (s.slot a).h.toInt := by
  rcases execFrompix_cases d a s with ⟨e, hd, hx'⟩ | ⟨W, H, -, hx'⟩
  · cases hx'.symm.trans hx
    exact too_large_of_errField hd herr
  · cases hx'.symm.trans hx
    cases hf.symm.trans hft

/-- An error that a command has recorded is one it can raise, or `IllegalCommand` (R166). -/
theorem canRaise_of_exec {i : Instr} {e : CmdError} (hf : faultFlag s.status = false) (hx : exec i s = .next t)
    (hft : faultFlag t.status = true) (herr : errField t.status = errorCode e) :
    canRaise i e = true ∨ e = .illegalCommand := by
  rcases exec_next_cases hx with ⟨f, rfl, hcause⟩ | ⟨d, b, -, rfl⟩ | ⟨d, W, H, bytes, -, rfl⟩
  · cases eq_of_errField_raise herr
    exact hcause.imp_right And.left
  · cases hf.symm.trans hft
  · cases hf.symm.trans hft

theorem not_allocationFailure_of_canRaise {i : Instr} (hi : canRaise i .allocationFailure = false)
    (hf : faultFlag s.status = false) (hx : exec i s = .next t) :
    ¬(faultFlag t.status = true ∧ errField t.status = errorCode .allocationFailure) := by
  rintro ⟨hft, herr⟩
  rcases canRaise_of_exec hf hx hft herr with he | he
  · cases hi.symm.trans he
  · cases he

end

/-- Settles O20: CREATE and FROMPIX by the cases of their dimensions, the others by the table of R166. -/
theorem allocationFailureRaised : Obligations.AllocationFailureRaised := by
  intro s d a
  refine ⟨fun hw hh hcap => ?create, fun hw hh hcap => ?frompix, fun t => too_large_of_exec_create,
    fun t => too_large_of_exec_frompix, fun p b r t hf hx => ?others⟩
  case create => exact ⟨_, exec_create_of_too_large d hw hh hcap, raise_faultEntered _ _ _⟩
  case frompix => exact ⟨_, exec_frompix_of_too_large d hw hh hcap, raise_faultEntered _ _ _⟩
  case others =>
    rcases hx with htopix | hblur | hdiff
    · exact not_allocationFailure_of_canRaise rfl hf htopix
    · exact not_allocationFailure_of_canRaise rfl hf hblur
    · exact not_allocationFailure_of_canRaise rfl hf hdiff

/-! ### DimensionMismatch and EmptyBuffer -/

theorem exec_diff_of_mismatch {s : State} (d : PSlot) {a b : HSlot} (ha : (s.buf a).w ≠ 0) (hb : (s.buf b).w ≠ 0)
    (hne : (s.buf a).w ≠ (s.buf b).w ∨ (s.buf a).h ≠ (s.buf b).h) :
    exec (.diff d a b) s = .next (raise .dimensionMismatch (encode (.diff d a b)) s) := by
  have hpair : sourcePair s a b = .error .dimensionMismatch :=
    (if_neg fun hempty => hempty.elim ha hb).trans (if_pos hne)
  simp [exec, execDiff, hpair]

/-- Settles O21. -/
theorem dimensionMismatchRaised : Obligations.DimensionMismatchRaised := fun _ d _ _ ha hb hne =>
  ⟨_, exec_diff_of_mismatch d ha hb hne, raise_faultEntered _ _ _⟩

/-- Settles O22: an empty source is what each of the three commands tests first. -/
theorem emptyBufferRaised : Obligations.EmptyBufferRaised := by
  intro s p d a b r ha
  refine ⟨?topix, fun hd => ?blur, ?diffSmall, ?diffLarge⟩
  case topix => exact ⟨_, exec_topix_of_empty p ha, raise_faultEntered _ _ _⟩
  case blur => exact ⟨_, exec_blur_of_empty r hd ha, raise_faultEntered _ _ _⟩
  case diffSmall => exact ⟨_, exec_diff_of_empty p (.inl ha), raise_faultEntered _ _ _⟩
  case diffLarge => exact ⟨_, exec_diff_of_empty p (.inr ha), raise_faultEntered _ _ _⟩

end Sys2Proof.Machine
end

section
/-!
The platform's reset (R191, R192): which state a reset access answers. What that state holds is the laws of
`State.powerOn` and O8. Settles O9.
-/

namespace Sys2Proof.Machine

/-- A reset access is the platform's reset of the engine, whatever the state, and is never refused. -/
theorem perform_reset (s : State) : perform .reset s = .next (platformReset s) := rfl

/-- A reset keeps the capacity and the host's list and takes the next reset number: the bytes of pixel memory are
the free value at that number (R192). -/
theorem platformReset_eq_powerOn (s : State) :
    platformReset s = State.powerOn s.capLess1 (s.epoch + 1) s.todo := rfl

/-- Settles O9: the access is the platform's reset, and the platform's reset leaves the state of R38. (The name
`platformReset` is the model's own function.) -/
theorem perform_platformReset : Obligations.PlatformReset := fun s =>
  (perform_reset s).trans (congrArg Host.Outcome.next (platformReset_eq_powerOn s))

end Sys2Proof.Machine
end
